-- ==== Sys2Proof/Word.lean ====
section
/-! DEFINITION. The word of the block: a byte (00_scope.md section 5), and byte sequences. -/

namespace Sys2Proof

/-- An unsigned integer 0..255 (00_scope.md section 5, "Values"). Every quantity on the wire and in a
buffer is one byte (20_memory.md R41, R43). -/
abbrev Byte := BitVec 8

/-- A byte sequence `[a, b, c]`: a payload, a frame, a packet, a fragment (00_scope.md section 5). -/
abbrev Bytes := List Byte

end Sys2Proof
end

