-- ==== Sys2Proof/Config.lean ====
section
/-! DEFINITION. What an implementation fixes (00_scope.md R5, R6) and the one free value. -/

namespace Sys2Proof

/-- The open parameters (00_scope.md R5, R6; 92_eei_decisions.md D21). They are fixed when the block is
built (10_state.md R29); log 1 says why a state carries them. -/
structure Params where
  /-- `PS`: the most frame bytes in one packet. -/
  ps : Nat
  /-- `RX_CAP`: capacity of the receive buffer in bytes. -/
  rxCap : Nat
  /-- `TX_CAP`: capacity of the transmit buffer in bytes. -/
  txCap : Nat
deriving DecidableEq, Repr

/-- The defaults: `PS = 19`, `RX_CAP = 300`, `TX_CAP = 300` (R5, R6). -/
def Params.default : Params := { ps := 19, rxCap := 300, txCap := 300 }

/-- The constraints of R6: `1 <= PS <= 255`, `RX_CAP >= 1`, `TX_CAP >= 2`. -/
abbrev Params.valid (p : Params) : Prop :=
  1 ≤ p.ps ∧ p.ps ≤ 255 ∧ 1 ≤ p.rxCap ∧ 2 ≤ p.txCap

/-- `PKT_MAX = PS + 1`: the longest packet, header included (R5). -/
abbrev Params.pktMax (p : Params) : Nat := p.ps + 1

namespace Config

/-- `ERR1`, the first byte of the in-band checksum-error code (R5). -/
def err1 : Byte := 0x66

/-- `ERR2`, the second byte of the in-band checksum-error code (R5). -/
def err2 : Byte := 0x02

/-- `F_SUP`: the largest frame length for which the offset scheme is called valid (R5). It is a duty of
the host, never a check (42_fragmenter.md R115). -/
def fSup : Nat := 255

/-- FREE VALUE (log 9): the verdict of `CKS8_CHK` on the empty sequence, which 40_checksum8.md R87 calls
"outside the domain". No body: nothing is known of it. -/
opaque emptyFrameVerdict : Bool

end Config
end Sys2Proof
end

