-- ==== Sys2Proof/Syntax.lean ====
section
/-! DEFINITION. The rows of spec/opcode_table.json as one inductive, the agents, the channels that bytes come in on, and the
names of what the decoder rejects. -/

namespace Sys2Proof

/-- The reason a `REFUSED` output event carries (42_fragmenter.md R113, 60_exceptions.md R163). -/
inductive Reason where
  | busy
  | tooLong
deriving DecidableEq, Repr

/-- The agents outside the block (20_memory.md R46). -/
inductive Agent where
  | host
  | transportWrite
  | transportNotify
  | resetSource
deriving DecidableEq, Repr

/-- One constructor per row of spec/opcode_table.json (30_encoding.md R72). -/
inductive Instr where
  /-- `FRAME` (R60): payload bytes and the checksum byte after them. -/
  | frame (p : Bytes) (c : Byte)
  /-- `PKT_FINAL` (R65 row 2, R129): header `0x00` and the fragment `d`. -/
  | pktFinal (d : Bytes)
  /-- `PKT_NONFINAL` (R65 row 3, R127): header `o`, other than `0x00`, and the fragment `d`. -/
  | pktNonfinal (o : Byte) (d : Bytes)
  /-- `CKS8` (R85). -/
  | cks8 (bs : Bytes)
  /-- `CKS8_GEN` (R86). -/
  | cks8Gen (p : Bytes)
  /-- `CKS8_CHK` (R87). -/
  | cks8Chk (f : Bytes)
  /-- `HDR_ENC` (R95): a full-width offset. -/
  | hdrEnc (off : Nat)
  /-- `HDR_DEC` (R96): a header byte. -/
  | hdrDec (h : Byte)
  /-- `FRAG` (R105). -/
  | frag (p : Bytes)
  /-- `TX_START` (R110): input event from the host. -/
  | txStart (p : Bytes)
  /-- `TX_ACK` (R111): input event from the transport's write side. -/
  | txAck
  /-- `RX_PACKET` (R125): input event from the transport's notify side. -/
  | rxPacket (b : Bytes)
  /-- `RX_CLEAR` (R150): input event from the host. -/
  | rxClear
  /-- `ABORT` (R151): input event from the host. -/
  | abort
  /-- `RESET` (R152): input event from the reset source. -/
  | reset
  /-- `PKT_OUT` (R166): output event to the transport. -/
  | pktOut (bytes : Bytes)
  /-- `TX_DONE` (R112): output event to the host. -/
  | txDone
  /-- `FRAME_OUT` (R134): output event to the host. -/
  | frameOut (out : Bytes) (ok : Bool)
  /-- `REFUSED` (R163): output event to the host. -/
  | refused (r : Reason)
deriving DecidableEq, Repr

/-- The agent that issues an input event; `none` for a row that is no input event (20_memory.md R46,
60_exceptions.md R165). -/
def Instr.issuer : Instr → Option Agent
  | .frame _ _ => none
  | .pktFinal _ => none
  | .pktNonfinal _ _ => none
  | .cks8 _ => none
  | .cks8Gen _ => none
  | .cks8Chk _ => none
  | .hdrEnc _ => none
  | .hdrDec _ => none
  | .frag _ => none
  | .txStart _ => some .host
  | .txAck => some .transportWrite
  | .rxPacket _ => some .transportNotify
  | .rxClear => some .host
  | .abort => some .host
  | .reset => some .resetSource
  | .pktOut _ => none
  | .txDone => none
  | .frameOut _ _ => none
  | .refused _ => none

/-- What a sequence of bytes given to the decoder is (log 12). -/
inductive Channel where
  /-- The bytes of one frame (30_encoding.md R60). -/
  | frame
  /-- The bytes of one notification (R61, R65). -/
  | packet
  /-- The ASCII bytes of one line of the event notation (R71). -/
  | line
deriving DecidableEq, Repr

/-- One item the environment gives the machine: where it comes in, and its bytes. -/
structure Feed where
  channel : Channel
  bytes : Bytes
deriving DecidableEq, Repr

/-- Why the decoder rejects a feed (log 16). -/
inductive DecodeError where
  /-- An empty sequence on the frame channel: a frame has at least its checksum byte (R60). -/
  | emptyFrame
  /-- A line whose mnemonic is none of the notation's (R71, R72). -/
  | unknownLine
  /-- A line whose operand is not of the form its mnemonic takes (R71). -/
  | badOperand
  /-- A line that names an event no rule can produce (WellFormed.lean). -/
  | illFormed
deriving DecidableEq, Repr

/-- What the decoder answers. -/
inductive Decoded where
  | ok (i : Instr)
  | bad (e : DecodeError)
deriving DecidableEq, Repr

end Sys2Proof
end

