-- ==== Sys2Proof/WellFormed.lean ====
section
/-! DEFINITION. Which terms of Instr are rows the spec admits (log 17). -/

namespace Sys2Proof

/-- The in-band error code stands at the end of `out`, cut short where `out` has fewer than two bytes
(43_reassembler.md R132, R133). -/
def endsInErrorCode (out : Bytes) : Bool :=
  match out.reverse with
  | [] => true
  | [b] => b == Config.err2
  | b :: a :: _ => b == Config.err2 && a == Config.err1

/-- A row the spec admits, for a block with the parameters `p`. Three rows have a check: a non-final
packet's header is not `0x00` (30_encoding.md R65: "B[0] != 0x00"); `PKT_OUT` carries 2..PKT_MAX bytes
(60_exceptions.md R166); `FRAME_OUT err` carries the error code (43_reassembler.md R132, R133). -/
def Instr.wf (p : Params) : Instr → Bool
  | .frame _ _ => true
  | .pktFinal _ => true
  | .pktNonfinal o _ => o != 0
  | .cks8 _ => true
  | .cks8Gen _ => true
  | .cks8Chk _ => true
  | .hdrEnc _ => true
  | .hdrDec _ => true
  | .frag _ => true
  | .txStart _ => true
  | .txAck => true
  | .rxPacket _ => true
  | .rxClear => true
  | .abort => true
  | .reset => true
  | .pktOut bytes => decide (2 ≤ bytes.length ∧ bytes.length ≤ p.pktMax)
  | .txDone => true
  | .frameOut out ok => ok || endsInErrorCode out
  | .refused _ => true

end Sys2Proof
end

