-- ==== Sys2Proof/Decode.lean ====
section
/-! DEFINITION. The decoder, total on any bytes of any channel, and the encoder after it: frames (30_encoding.md R60), packets
(R61, R62, R65) and lines of the event notation (R71; for the pure functions log 13). -/

namespace Sys2Proof

/-! ### Text: the characters of a line, tokens, bytes in hexadecimal, offsets in decimal -/

/-- The ASCII bytes of a word of the notation. -/
def ascii (cs : List Char) : Bytes := cs.map (fun c => BitVec.ofNat 8 c.toNat)

/-- The byte between two tokens of a line. -/
def spaceByte : Byte := 0x20

/-- A line cut at its spaces. -/
def splitTokens : Bytes → List Bytes
  | [] => [[]]
  | b :: bs =>
    if b = spaceByte then [] :: splitTokens bs
    else match splitTokens bs with
      | [] => [[b]]
      | t :: ts => (b :: t) :: ts

/-- Tokens joined by single spaces. -/
def joinTokens : List Bytes → Bytes
  | [] => []
  | [t] => t
  | t :: u :: ts => t ++ spaceByte :: joinTokens (u :: ts)

/-- The value of a hexadecimal digit, capital or small (log 14). -/
def hexValue (c : Byte) : Option Nat :=
  let n := c.toNat
  if 0x30 ≤ n ∧ n ≤ 0x39 then some (n - 0x30)
  else if 0x41 ≤ n ∧ n ≤ 0x46 then some (n - 0x41 + 10)
  else if 0x61 ≤ n ∧ n ≤ 0x66 then some (n - 0x61 + 10)
  else none

/-- The hexadecimal digit of a value below 16, in capitals. -/
def hexDigit (n : Nat) : Byte :=
  if n < 10 then BitVec.ofNat 8 (0x30 + n) else BitVec.ofNat 8 (0x41 + (n - 10))

/-- "Bytes are two hex digits" (R71). -/
def byteOfToken : Bytes → Option Byte
  | [a, b] =>
    match hexValue a, hexValue b with
    | some x, some y => some (BitVec.ofNat 8 (16 * x + y))
    | _, _ => none
  | _ => none

/-- The two hex digits of a byte. -/
def tokenOfByte (b : Byte) : Bytes := [hexDigit (b.toNat / 16), hexDigit (b.toNat % 16)]

/-- The bytes a list of tokens stands for. -/
def bytesOfTokens : List Bytes → Option Bytes
  | [] => some []
  | t :: ts =>
    match byteOfToken t, bytesOfTokens ts with
    | some b, some bs => some (b :: bs)
    | _, _ => none

/-- The value of a decimal digit. -/
def decValue (c : Byte) : Option Nat :=
  let n := c.toNat
  if 0x30 ≤ n ∧ n ≤ 0x39 then some (n - 0x30) else none

/-- Reads decimal digits on from the value `acc`. -/
def readDecimal (acc : Nat) : Bytes → Option Nat
  | [] => some acc
  | c :: cs =>
    match decValue c with
    | some d => readDecimal (10 * acc + d) cs
    | none => none

/-- The offset a token of decimal digits stands for (log 13). -/
def offsetOfToken : Bytes → Option Nat
  | [] => none
  | c :: cs => readDecimal 0 (c :: cs)

/-- The decimal digits of `n`, at most `fuel` of them. -/
def decimalDigits : Nat → Nat → Bytes
  | 0, _ => []
  | fuel + 1, n =>
    if n < 10 then [BitVec.ofNat 8 (0x30 + n)]
    else decimalDigits fuel (n / 10) ++ [BitVec.ofNat 8 (0x30 + n % 10)]

/-- The token of an offset. -/
def tokenOfOffset (n : Nat) : Bytes := decimalDigits (n + 1) n

/-! ### The words of the notation (30_encoding.md R71, R72) -/

/-- The mark of an output event's line. -/
def wGt : Bytes := ascii ['>']
/-- `RESET`. -/
def wReset : Bytes := ascii ['R', 'E', 'S', 'E', 'T']
/-- `ABORT`. -/
def wAbort : Bytes := ascii ['A', 'B', 'O', 'R', 'T']
/-- `RX_CLEAR`. -/
def wRxClear : Bytes := ascii ['R', 'X', '_', 'C', 'L', 'E', 'A', 'R']
/-- `TX_START`. -/
def wTxStart : Bytes := ascii ['T', 'X', '_', 'S', 'T', 'A', 'R', 'T']
/-- `TX_ACK`. -/
def wTxAck : Bytes := ascii ['T', 'X', '_', 'A', 'C', 'K']
/-- `RX_PACKET`. -/
def wRxPacket : Bytes := ascii ['R', 'X', '_', 'P', 'A', 'C', 'K', 'E', 'T']
/-- `PKT_OUT`. -/
def wPktOut : Bytes := ascii ['P', 'K', 'T', '_', 'O', 'U', 'T']
/-- `TX_DONE`. -/
def wTxDone : Bytes := ascii ['T', 'X', '_', 'D', 'O', 'N', 'E']
/-- `FRAME_OUT`. -/
def wFrameOut : Bytes := ascii ['F', 'R', 'A', 'M', 'E', '_', 'O', 'U', 'T']
/-- `ok`. -/
def wOk : Bytes := ascii ['o', 'k']
/-- `err`. -/
def wErr : Bytes := ascii ['e', 'r', 'r']
/-- `REFUSED`. -/
def wRefused : Bytes := ascii ['R', 'E', 'F', 'U', 'S', 'E', 'D']
/-- `Busy`. -/
def wBusy : Bytes := ascii ['B', 'u', 's', 'y']
/-- `TooLong`. -/
def wTooLong : Bytes := ascii ['T', 'o', 'o', 'L', 'o', 'n', 'g']
/-- `CKS8`. -/
def wCks8 : Bytes := ascii ['C', 'K', 'S', '8']
/-- `CKS8_GEN`. -/
def wCks8Gen : Bytes := ascii ['C', 'K', 'S', '8', '_', 'G', 'E', 'N']
/-- `CKS8_CHK`. -/
def wCks8Chk : Bytes := ascii ['C', 'K', 'S', '8', '_', 'C', 'H', 'K']
/-- `HDR_ENC`. -/
def wHdrEnc : Bytes := ascii ['H', 'D', 'R', '_', 'E', 'N', 'C']
/-- `HDR_DEC`. -/
def wHdrDec : Bytes := ascii ['H', 'D', 'R', '_', 'D', 'E', 'C']
/-- `FRAG`. -/
def wFrag : Bytes := ascii ['F', 'R', 'A', 'G']

/-! ### Decoding -/

/-- A line whose operand is a sequence of bytes. -/
def withBytes (ts : List Bytes) (k : Bytes → Instr) : Decoded :=
  match bytesOfTokens ts with
  | some bs => .ok (k bs)
  | none => .bad .badOperand

/-- A line that has no operand. -/
def withNothing (ts : List Bytes) (i : Instr) : Decoded :=
  if ts = [] then .ok i else .bad .badOperand

/-- `> FRAME_OUT ok …` or `> FRAME_OUT err …` (R71). -/
def decodeFrameOut : List Bytes → Decoded
  | [] => .bad .badOperand
  | v :: ts =>
    if v = wOk then withBytes ts (fun bs => .frameOut bs true)
    else if v = wErr then withBytes ts (fun bs => .frameOut bs false)
    else .bad .badOperand

/-- `> REFUSED Busy` or `> REFUSED TooLong` (R71). -/
def decodeRefused (ts : List Bytes) : Decoded :=
  if ts = [wBusy] then .ok (.refused .busy)
  else if ts = [wTooLong] then .ok (.refused .tooLong)
  else .bad .badOperand

/-- `HDR_ENC <offset>` (log 13). -/
def decodeHdrEnc : List Bytes → Decoded
  | [t] =>
    match offsetOfToken t with
    | some n => .ok (.hdrEnc n)
    | none => .bad .badOperand
  | _ => .bad .badOperand

/-- `HDR_DEC <byte>` (log 13). -/
def decodeHdrDec (ts : List Bytes) : Decoded :=
  match bytesOfTokens ts with
  | some [h] => .ok (.hdrDec h)
  | _ => .bad .badOperand

/-- The tokens after `>`: an output event (R71). -/
def decodeOutput : List Bytes → Decoded
  | [] => .bad .unknownLine
  | t :: ts =>
    if t = wPktOut then withBytes ts .pktOut
    else if t = wTxDone then withNothing ts .txDone
    else if t = wFrameOut then decodeFrameOut ts
    else if t = wRefused then decodeRefused ts
    else .bad .unknownLine

/-- The tokens of a line (R71, and log 13 for the pure functions). -/
def decodeTokens : List Bytes → Decoded
  | [] => .bad .unknownLine
  | t :: ts =>
    if t = wGt then decodeOutput ts
    else if t = wReset then withNothing ts .reset
    else if t = wAbort then withNothing ts .abort
    else if t = wRxClear then withNothing ts .rxClear
    else if t = wTxStart then withBytes ts .txStart
    else if t = wTxAck then withNothing ts .txAck
    else if t = wRxPacket then withBytes ts .rxPacket
    else if t = wCks8 then withBytes ts .cks8
    else if t = wCks8Gen then withBytes ts .cks8Gen
    else if t = wCks8Chk then withBytes ts .cks8Chk
    else if t = wHdrEnc then decodeHdrEnc ts
    else if t = wHdrDec then decodeHdrDec ts
    else if t = wFrag then withBytes ts .frag
    else .bad .unknownLine

/-- The classification of a received byte sequence, in the order of 30_encoding.md R65: an empty
notification, a final packet, a non-final packet. It is total. -/
def decodePacket : Bytes → Instr
  | [] => .rxPacket []
  | h :: d => if h = 0 then .pktFinal d else .pktNonfinal h d

/-- The bytes of a frame: payload, then the checksum byte (R60). -/
def decodeFrame (bs : Bytes) : Decoded :=
  match bs.getLast? with
  | none => .bad .emptyFrame
  | some c => .ok (.frame bs.dropLast c)

/-- A decoded row passes only if the spec admits it (WellFormed.lean). -/
def acceptRow (p : Params) : Decoded → Decoded
  | .ok i => if i.wf p then .ok i else .bad .illFormed
  | .bad e => .bad e

/-- The decoder: total on any bytes of any channel. -/
def decode (p : Params) (f : Feed) : Decoded :=
  match f.channel with
  | .frame => acceptRow p (decodeFrame f.bytes)
  | .packet => acceptRow p (.ok (decodePacket f.bytes))
  | .line => acceptRow p (decodeTokens (splitTokens f.bytes))

/-! ### Encoding -/

/-- The tokens of the line of a row that is written as a line; a row with a byte format has none. -/
def Instr.tokens : Instr → List Bytes
  | .frame _ _ => []
  | .pktFinal _ => []
  | .pktNonfinal _ _ => []
  | .cks8 bs => wCks8 :: bs.map tokenOfByte
  | .cks8Gen p => wCks8Gen :: p.map tokenOfByte
  | .cks8Chk f => wCks8Chk :: f.map tokenOfByte
  | .hdrEnc off => [wHdrEnc, tokenOfOffset off]
  | .hdrDec h => [wHdrDec, tokenOfByte h]
  | .frag p => wFrag :: p.map tokenOfByte
  | .txStart p => wTxStart :: p.map tokenOfByte
  | .txAck => [wTxAck]
  | .rxPacket b => wRxPacket :: b.map tokenOfByte
  | .rxClear => [wRxClear]
  | .abort => [wAbort]
  | .reset => [wReset]
  | .pktOut bytes => wGt :: wPktOut :: bytes.map tokenOfByte
  | .txDone => [wGt, wTxDone]
  | .frameOut out ok => wGt :: wFrameOut :: (if ok then wOk else wErr) :: out.map tokenOfByte
  | .refused .busy => [wGt, wRefused, wBusy]
  | .refused .tooLong => [wGt, wRefused, wTooLong]

/-- A row written as a line of the notation. -/
def lineOf (i : Instr) : Feed := { channel := .line, bytes := joinTokens i.tokens }

/-- The encoder: a frame's bytes (R60), a packet's bytes (R61, R62), or a line (R71). -/
def encode : Instr → Feed
  | .frame p c => { channel := .frame, bytes := p ++ [c] }
  | .pktFinal d => { channel := .packet, bytes := 0x00 :: d }
  | .pktNonfinal o d => { channel := .packet, bytes := o :: d }
  | .cks8 bs => lineOf (.cks8 bs)
  | .cks8Gen p => lineOf (.cks8Gen p)
  | .cks8Chk f => lineOf (.cks8Chk f)
  | .hdrEnc off => lineOf (.hdrEnc off)
  | .hdrDec h => lineOf (.hdrDec h)
  | .frag p => lineOf (.frag p)
  | .txStart p => lineOf (.txStart p)
  | .txAck => lineOf .txAck
  | .rxPacket b => lineOf (.rxPacket b)
  | .rxClear => lineOf .rxClear
  | .abort => lineOf .abort
  | .reset => lineOf .reset
  | .pktOut bytes => lineOf (.pktOut bytes)
  | .txDone => lineOf .txDone
  | .frameOut out ok => lineOf (.frameOut out ok)
  | .refused r => lineOf (.refused r)

/-! ### The table's words -/

/-- The `n` bytes of the number `w`, byte 0 the least significant: the table's numbering. -/
def tableBytes : Nat → Nat → Bytes
  | 0, _ => []
  | n + 1, w => BitVec.ofNat 8 w :: tableBytes n (w / 256)

/-- A table word as the decoder gets it: the packet's bytes, byte 0 the header (opcode_table.json gives
bits to the PKT rows only; its "match/mask apply to packet byte 0 only"). -/
def tableFeed (nbits w : Nat) : Feed :=
  { channel := .packet, bytes := tableBytes ((nbits + 7) / 8) w }

/-- What the decoder reads from a table word, at the default parameters. -/
def decodeTableWord (nbits w : Nat) : Option Instr :=
  match decode Params.default (tableFeed nbits w) with
  | .ok i => some i
  | .bad _ => none

end Sys2Proof
end

