-- ==== Sys2Proof/Machine/State.lean ====
section
/-! DEFINITION. The state of the block (10_state.md R20), its parameters and its environment as plain data, the reasons a step
can stop, and the state after reset (R32). -/

namespace Sys2Proof.Machine

/-- `tx_state` (10_state.md R21). -/
inductive TxState where
  | idle
  | sending
deriving DecidableEq, Repr

/-- A byte buffer as the cells that differ from what an unlisted address reads as, addresses strictly
rising (`Memory.wf`, Ops.lean). An address is a frame offset (20_memory.md R40). -/
abbrev Memory := List Host.Cell

/-- An output event (60_exceptions.md R166). -/
inductive OutEvent where
  /-- One packet handed to `writePacket`. -/
  | pktOut (bytes : Bytes)
  /-- The head packet was acknowledged (42_fragmenter.md R112). -/
  | txDone
  /-- A reassembled payload and the verdict (43_reassembler.md R134). -/
  | frameOut (out : Bytes) (ok : Bool)
  /-- A refused `TX_START` (60_exceptions.md R163). -/
  | refused (r : Reason)
deriving DecidableEq, Repr

/-- The agent an output event is delivered to (60_exceptions.md R166). -/
def OutEvent.receiver : OutEvent → Agent
  | .pktOut _ => .transportWrite
  | .txDone => .host
  | .frameOut _ _ => .host
  | .refused _ => .host

/-- Whether an output event comes from the transmit side (`TX_START`, `TX_ACK`) or the receive side
(`RX_PACKET`), the two sides of 20_memory.md R52. -/
def OutEvent.fromTx : OutEvent → Bool
  | .pktOut _ => true
  | .txDone => true
  | .frameOut _ _ => false
  | .refused _ => true

/-- What a pure function, or a frame taken on its own, gives (log 5). -/
inductive FnResult where
  /-- A byte: `CKS8`, `HDR_ENC`. -/
  | byte (b : Byte)
  /-- A frame: `CKS8_GEN`. -/
  | bytes (bs : Bytes)
  /-- A verdict: `CKS8_CHK`. -/
  | verdict (ok : Bool)
  /-- A pair `(pos, final)`: `HDR_DEC`. -/
  | position (pos : Nat) (final : Bool)
  /-- A list of packets in the order they are sent: `FRAG`. -/
  | packets (ps : List Bytes)
  /-- A frame's bytes and whether it is valid: `FRAME`. -/
  | frame (bs : Bytes) (valid : Bool)
deriving DecidableEq, Repr

/-- The six state elements of 10_state.md R20, the parameters (log 1) and the model's own fields for the
environment (log 3, 4, 5). -/
structure State where
  /-- The parameters the block was built with (00_scope.md R5, R6); no event changes them (R29). -/
  params : Params
  /-- `tx_state` (R21). -/
  txState : TxState
  /-- `tx_buf` (R22). -/
  txBuf : Memory
  /-- `tx_flen` (R23). -/
  txFlen : Nat
  /-- `tx_off` (R24). -/
  txOff : Nat
  /-- `rx_buf` (R25). -/
  rxBuf : Memory
  /-- `rx_len` (R26). -/
  rxLen : Nat
  /-- The MODEL's own: the feeds the environment will still give, next one first (log 3). -/
  pending : List Feed
  /-- The MODEL's own: the output events emitted so far, oldest first (log 4). -/
  outputs : List OutEvent
  /-- The MODEL's own: the values of rows that only compute, oldest first (log 5). -/
  results : List FnResult
deriving DecidableEq, Repr

/-- The block never faults (60_exceptions.md R160). These stand for a read of a buffer address that does
not exist, which only a state outside `Inv` (Safety.lean) can reach: SAFE (log 10). -/
inductive Fault where
  /-- Raised by `TX_ACK` where the next packet's bytes would be read at or above TX_CAP (20_memory.md R45 says they never are;
  `TX_START` sends through the same operation, and its packet always lies below TX_CAP): safe. -/
  | txbRead
  /-- Raised by `RX_PACKET` and `PKT_FINAL` where `rx_len` exceeds RX_CAP at completion (20_memory.md R44 says it never does):
  safe. -/
  | rxbRead
deriving DecidableEq, Repr

/-- Why a step has no meaning. -/
inductive Refusal where
  /-- Raised by `exec` for a row that has no meaning yet; no arm does: safe. -/
  | notModelled (mnemonic : String)
  /-- Raised by `step` for a feed that the decoder rejects: it is no event of the block, so the machine stops (log 16): safe. -/
  | undecodable (e : DecodeError)
deriving DecidableEq, Repr

/-- The state after reset (10_state.md R32), at the default parameters (00_scope.md R5, R6). `tx_buf` is
unspecified and unobservable (R22): nothing listed (log 8). -/
def State.reset : State where
  params := Params.default
  txState := .idle
  txBuf := []
  txFlen := 0
  txOff := 0
  rxBuf := []
  rxLen := 0
  pending := []
  outputs := []
  results := []

end Sys2Proof.Machine
end

