-- ==== Sys2Proof/Machine/Flags.lean ====
section
/-! DEFINITION. The checksum-8 generator and validator (40_checksum8.md) and the derived flags (10_state.md R28). -/

namespace Sys2Proof.Machine

/-- `CKS8(s)` (R85): the bytes added up in an 8-bit accumulator that starts at 0. -/
def cks8 (bs : Bytes) : Byte := bs.foldl (fun acc b => acc + b) 0

/-- `CKS8_GEN(P) = P ++ [CKS8(P)]` (R86). -/
def cks8Gen (p : Bytes) : Bytes := p ++ [cks8 p]

/-- `CKS8_CHK(f)` (R87): the sum of all bytes but the last against the last. The empty sequence is outside
the function's domain; its verdict is a free value (log 9). -/
def cks8Chk (f : Bytes) : Bool :=
  match f.getLast? with
  | none => Config.emptyFrameVerdict
  | some c => cks8 f.dropLast == c

/-- `tx_busy = (tx_state = Sending)` (10_state.md R28). -/
def State.txBusy (s : State) : Bool := s.txState == .sending

/-- `rx_active = (rx_len > 0)` (10_state.md R28). -/
def State.rxActive (s : State) : Bool := decide (0 < s.rxLen)

end Sys2Proof.Machine
end

