-- ==== Sys2Proof/Machine/Operands.lean ====
section
/-! DEFINITION. The header codec (41_header_codec.md) and the fragment geometry (42_fragmenter.md R106, R107): every place where
an operand becomes an address or an address becomes a header. -/

namespace Sys2Proof.Machine

/-- `HDR_ENC(off) = off mod 256` (R95); higher bits are discarded without any check (R63). -/
def hdrEnc (off : Nat) : Byte := BitVec.ofNat 8 off

/-- `HDR_DEC(h) = (pos, final)` (R96): `d = zext(h) - 1` over the integers, `final = (d == -1)`,
`pos = zext(h)`. -/
def hdrDec (h : Byte) : Nat × Bool :=
  let d : Int := (h.toNat : Int) - 1
  (h.toNat, decide (d = -1))

/-- `r`: the length of the head fragment of a frame of `f` bytes, `1..PS` (R106). -/
def headLen (ps f : Nat) : Nat := if f % ps = 0 then ps else f % ps

/-- `n`: the number of packets of a frame of `f` bytes (R106). -/
def packetCount (ps f : Nat) : Nat := (f - headLen ps f) / ps + 1

/-- `off(k)`: where the fragment of the `k`-th packet sent starts in a frame of `f` bytes (R107). -/
def fragOff (ps f k : Nat) : Nat :=
  if k + 1 < packetCount ps f then headLen ps f + ps * (packetCount ps f - 2 - k) else 0

/-- `flen(k)`: the length of the fragment of the `k`-th packet sent (R107). -/
def fragLen (ps f k : Nat) : Nat :=
  if k + 1 < packetCount ps f then ps else headLen ps f

/-- The length of the fragment at offset `off` of a frame of `f` bytes, as `TXPKT` reads it (R110):
`(off == 0) ? r : PS`. -/
def fragLenAt (ps f off : Nat) : Nat := if off = 0 then headLen ps f else ps

/-- `tx_off` after `TX_START` loads a frame of `f` bytes (R110): `(F > PS) ? F - PS : 0`. -/
def firstOff (ps f : Nat) : Nat := if ps < f then f - ps else 0

/-- `tx_off` after a `TX_ACK` (R111): `max(tx_off - PS, 0)`. -/
def nextOff (ps off : Nat) : Nat := off - ps

end Sys2Proof.Machine
end

