-- ==== Sys2Proof/Machine/Ops.lean ====
section
/-! DEFINITION. The shared operations: the two buffers' accesses (20_memory.md), emission and refusal of events
(60_exceptions.md), loading a frame and building a packet (42_fragmenter.md), placing a fragment, completing a frame and the
in-band report of a checksum mismatch (43_reassembler.md), clearing (44_control.md). -/

namespace Sys2Proof.Machine

/-! ### Memory -/

/-- What an unlisted address of either buffer reads as: `0x00`, RXB's reset contents (10_state.md R25,
R32); for TXB log 8. -/
def Memory.unlisted : Byte := 0x00

/-- One byte read. -/
def Memory.read : Memory → Nat → Byte
  | [], _ => Memory.unlisted
  | (k, v) :: m, a => if k = a then v else Memory.read m a

/-- One byte written, the canonical form kept. -/
def Memory.write : Memory → Nat → Byte → Memory
  | [], a, b => if b = Memory.unlisted then [] else [(a, b)]
  | (k, v) :: m, a, b =>
    if a < k then (if b = Memory.unlisted then (k, v) :: m else (a, b) :: (k, v) :: m)
    else if a = k then (if b = Memory.unlisted then m else (a, b) :: m)
    else (k, v) :: Memory.write m a b

/-- The canonical form from address `lo` on, below `cap`. -/
def Memory.wfFrom (cap : Nat) : Nat → Memory → Bool
  | _, [] => true
  | lo, (k, v) :: m => decide (lo ≤ k) && decide (k < cap) && v != Memory.unlisted && Memory.wfFrom cap (k + 1) m

/-- The canonical form of a buffer of `cap` bytes: addresses strictly rising and below `cap`, no entry equal to what
an unlisted address reads as. -/
def Memory.wf (cap : Nat) (m : Memory) : Bool := Memory.wfFrom cap 0 m

/-- `MemRead(space, a, n)` (00_scope.md section 5), where every address exists. -/
def Memory.readBytes (m : Memory) : Nat → Nat → Bytes
  | _, 0 => []
  | a, n + 1 => m.read a :: Memory.readBytes m (a + 1) n

/-- `MemWrite(space, a, n, v)` (00_scope.md section 5). -/
def Memory.writeBytes (m : Memory) : Nat → Bytes → Memory
  | _, [] => m
  | a, b :: bs => Memory.writeBytes (m.write a b) (a + 1) bs

/-- `MemRead` in a space of `cap` bytes: nothing where an address does not exist (log 10). -/
def Memory.readIn (cap : Nat) (m : Memory) (a n : Nat) : Option Bytes :=
  if n = 0 ∨ a + n ≤ cap then some (m.readBytes a n) else none

/-- A fragment stored byte by byte from address `a` in a space of `cap` bytes; a byte whose address is
at or above `cap` is dropped (20_memory.md R44, 43_reassembler.md R127). -/
def Memory.place (cap : Nat) (m : Memory) : Nat → Bytes → Memory
  | _, [] => m
  | a, b :: bs => Memory.place cap (if a < cap then m.write a b else m) (a + 1) bs

/-! ### Output events -/

/-- `emit E(args)` (00_scope.md section 5, 60_exceptions.md R166). -/
def State.emit (s : State) (e : OutEvent) : State := { s with outputs := s.outputs ++ [e] }

/-- `refuse(reason)` (60_exceptions.md R163): no state change, and only `REFUSED(reason)` is emitted. -/
def State.refuse (s : State) (r : Reason) : State := s.emit (.refused r)

/-- The value of a row that only computes is presented (log 5); no state of the block is read or written. -/
def State.answer (s : State) (r : FnResult) : State := { s with results := s.results ++ [r] }

/-! ### The transmit side -/

/-- The frame of payload `p` loaded (42_fragmenter.md R110): `tx_buf`, `tx_flen`, `tx_off`, `tx_state`. -/
def State.loadFrame (s : State) (p : Bytes) : State :=
  { s with
    txBuf := s.txBuf.writeBytes 0 (cks8Gen p)
    txFlen := p.length + 1
    txOff := firstOff s.params.ps (p.length + 1)
    txState := .sending }

/-- `TXPKT(tx_off)` (R110): the header and the fragment's bytes read from TXB. -/
def State.txPkt (s : State) : Option Bytes :=
  match s.txBuf.readIn s.params.txCap s.txOff (fragLenAt s.params.ps s.txFlen s.txOff) with
  | some d => some (hdrEnc s.txOff :: d)
  | none => none

/-- The outstanding packet emitted (R110, R111: "tx_off as just written"). -/
def State.sendPkt (s : State) : Host.Outcome State Fault Refusal :=
  match s.txPkt with
  | some pk => .next (s.emit (.pktOut pk))
  | none => .fault .txbRead

/-- `tx_off` moved on to the next fragment (R111). -/
def State.advance (s : State) : State := { s with txOff := nextOff s.params.ps s.txOff }

/-- The frame was sent (R111): the block is idle and no frame is loaded. -/
def State.finishTx (s : State) : State := { s with txState := .idle, txFlen := 0 }

/-- The transmit side's reset values (44_control.md R151); `tx_buf` is left alone (20_memory.md R40). -/
def State.clearTx (s : State) : State := { s with txState := .idle, txFlen := 0, txOff := 0 }

/-! ### The receive side -/

/-- The reassembler cleared (44_control.md R150, 43_reassembler.md R135): `rx_len` 0, every byte of `rx_buf` 0x00. -/
def State.clearRx (s : State) : State := { s with rxLen := 0, rxBuf := [] }

/-- A fragment at position `pos` taken in: placement (43_reassembler.md R127) and length (R128). -/
def State.takeFragment (s : State) (pos : Nat) (d : Bytes) : State :=
  { s with
    rxBuf := s.rxBuf.place s.params.rxCap pos d
    rxLen := max s.rxLen (min (pos + d.length) s.params.rxCap) }

/-- `ChecksumMismatch` reported in-band (43_reassembler.md R132, R133; 60_exceptions.md R161, R168): the last two bytes of the
delivered payload become `ERR1, ERR2`, at the positions that exist. Nothing is saved and control goes nowhere. -/
def markMismatch (out : Bytes) : Bytes :=
  if 2 ≤ out.length then out.take (out.length - 2) ++ [Config.err1, Config.err2]
  else if out.length = 1 then [Config.err2]
  else []

/-- What is delivered for a frame (43_reassembler.md R131 to R134): its bytes but the last, marked if the verdict is false. -/
def deliver (f : Bytes) : OutEvent :=
  let ok := cks8Chk f
  .frameOut (if ok then f.dropLast else markMismatch f.dropLast) ok

/-- A frame completed (43_reassembler.md R129 to R135): `T = rx_len`; with `T >= 1` the frame is validated and delivered; then
the reassembler is cleared, whether or not anything was delivered. -/
def State.complete (s : State) : Host.Outcome State Fault Refusal :=
  if s.rxLen = 0 then .next s.clearRx
  else
    match s.rxBuf.readIn s.params.rxCap 0 s.rxLen with
    | some f => .next (s.emit (deliver f)).clearRx
    | none => .fault .rxbRead

/-- The whole block returned to its reset values (44_control.md R151, 10_state.md R32). -/
def State.clearAll (s : State) : State := s.clearTx.clearRx

end Sys2Proof.Machine
end

