-- ==== Sys2Proof/Machine/Checksum.lean ====
section
/-! DEFINITION. The meanings of `CKS8`, `CKS8_GEN`, `CKS8_CHK` (40_checksum8.md) and of the wire format `FRAME` (30_encoding.md R60)
executed on their own (log 5, 6): the value is presented, no state is read or written. -/

namespace Sys2Proof.Machine

/-- `CKS8` (R85). -/
def execCks8 (bs : Bytes) (s : State) : Host.Outcome State Fault Refusal :=
  .next (s.answer (.byte (cks8 bs)))

/-- `CKS8_GEN` (R86). -/
def execCks8Gen (p : Bytes) (s : State) : Host.Outcome State Fault Refusal :=
  .next (s.answer (.bytes (cks8Gen p)))

/-- `CKS8_CHK` (R87); on the empty sequence the verdict is a free value (log 9). -/
def execCks8Chk (f : Bytes) (s : State) : Host.Outcome State Fault Refusal :=
  .next (s.answer (.verdict (cks8Chk f)))

/-- `FRAME` (R60): the bytes at frame offsets `0..L`, and whether they are a valid frame ("valid only if the checksum byte
equals `sum(payload) mod 256`"). -/
def execFrame (p : Bytes) (c : Byte) (s : State) : Host.Outcome State Fault Refusal :=
  .next (s.answer (.frame (p ++ [c]) (cks8 p == c)))

end Sys2Proof.Machine
end

