-- ==== Sys2Proof/Machine/Control.lean ====
section
/-! DEFINITION. The control operations (44_control.md): `RX_CLEAR`, `ABORT`, `RESET`. -/

namespace Sys2Proof.Machine

/-- `RX_CLEAR` (R150): clears the reassembler and nothing else. -/
def execRxClear (s : State) : Host.Outcome State Fault Refusal := .next s.clearRx

/-- `ABORT` (R151): the whole block returned to its reset state; nothing is emitted. -/
def execAbort (s : State) : Host.Outcome State Fault Refusal := .next s.clearAll

/-- `RESET` (R152): "Its effect on the state is identical to `ABORT`"; nothing is emitted. -/
def execReset (s : State) : Host.Outcome State Fault Refusal := .next s.clearAll

end Sys2Proof.Machine
end

