-- ==== Sys2Proof/Machine/Fragmenter.lean ====
section
/-! DEFINITION. The packet fragmenter (42_fragmenter.md): `FRAG`, `TX_START`, `TX_ACK`. -/

namespace Sys2Proof.Machine

/-- `packet(k)` of a frame (R107): the header and the fragment `frame[off(k) : off(k)+flen(k))`. -/
def framePacket (ps : Nat) (f : Bytes) (k : Nat) : Bytes :=
  hdrEnc (fragOff ps f.length k) :: (f.drop (fragOff ps f.length k)).take (fragLen ps f.length k)

/-- The packets of a frame in the order they are sent (R108). -/
def framePackets (ps : Nat) (f : Bytes) : List Bytes :=
  (List.range (packetCount ps f.length)).map (framePacket ps f)

/-- `FRAG(P)` (R105 to R109): no packets for an empty payload, else the packets of the frame. -/
def frag (ps : Nat) (p : Bytes) : List Bytes :=
  if p = [] then [] else framePackets ps (cks8Gen p)

/-- `FRAG` (R105) executed on its own (log 5). -/
def execFrag (p : Bytes) (s : State) : Host.Outcome State Fault Refusal :=
  .next (s.answer (.packets (frag s.params.ps p)))

/-- `TX_START` (R110, R113): `Busy` is tested first, then the empty payload's no-op (R109), then `TooLong`; otherwise the
frame is loaded and its first packet emitted. -/
def execTxStart (p : Bytes) (s : State) : Host.Outcome State Fault Refusal :=
  if s.txState = .sending then .next (s.refuse .busy)
  else if p.length = 0 then .next s
  else if s.params.txCap < p.length + 1 then .next (s.refuse .tooLong)
  else (s.loadFrame p).sendPkt

/-- `TX_ACK` (R111): ignored while idle (R114); after the head packet the block is idle and `TX_DONE` is emitted (R112);
otherwise the next packet is emitted. -/
def execTxAck (s : State) : Host.Outcome State Fault Refusal :=
  if s.txState = .idle then .next s
  else if s.txOff = 0 then .next (s.finishTx.emit .txDone)
  else s.advance.sendPkt

end Sys2Proof.Machine
end

