-- ==== Sys2Proof/Machine/Header.lean ====
section
/-! DEFINITION. The meanings of `HDR_ENC` and `HDR_DEC` (41_header_codec.md) executed on their own (log 5). -/

namespace Sys2Proof.Machine

/-- `HDR_ENC` (R95). -/
def execHdrEnc (off : Nat) (s : State) : Host.Outcome State Fault Refusal :=
  .next (s.answer (.byte (hdrEnc off)))

/-- `HDR_DEC` (R96). -/
def execHdrDec (h : Byte) (s : State) : Host.Outcome State Fault Refusal :=
  .next (s.answer (.position (hdrDec h).1 (hdrDec h).2))

end Sys2Proof.Machine
end

