-- ==== Sys2Proof/Machine/Outputs.lean ====
section
/-! DEFINITION. The output events (60_exceptions.md R166) executed on their own (log 7): the event is emitted, no state of the
block is read or written. Inside an input event the same emission is made by that event's rule. -/

namespace Sys2Proof.Machine

/-- `PKT_OUT` (R166): one packet handed to the transport. -/
def execPktOut (bytes : Bytes) (s : State) : Host.Outcome State Fault Refusal := .next (s.emit (.pktOut bytes))

/-- `TX_DONE` (R112, R166). -/
def execTxDone (s : State) : Host.Outcome State Fault Refusal := .next (s.emit .txDone)

/-- `FRAME_OUT` (R134, R166). -/
def execFrameOut (out : Bytes) (ok : Bool) (s : State) : Host.Outcome State Fault Refusal :=
  .next (s.emit (.frameOut out ok))

/-- `REFUSED` (R163, R166). -/
def execRefused (r : Reason) (s : State) : Host.Outcome State Fault Refusal := .next (s.refuse r)

end Sys2Proof.Machine
end

