-- ==== Sys2Proof/Machine/Reassembler.lean ====
section
/-! DEFINITION. The packet reassembler (43_reassembler.md): `RX_PACKET`, and the packet formats `PKT_FINAL` and `PKT_NONFINAL`
(30_encoding.md R61, R65) as the reception of such a packet (log 6). -/

namespace Sys2Proof.Machine

/-- `RX_PACKET` (R125): an empty notification changes nothing (R126); else the fragment is taken in at the header's position
(R127, R128), and a final packet completes the frame (R129 to R135). -/
def execRxPacket (b : Bytes) (s : State) : Host.Outcome State Fault Refusal :=
  match b with
  | [] => .next s
  | h :: d =>
    if (hdrDec h).2 then (s.takeFragment (hdrDec h).1 d).complete
    else .next (s.takeFragment (hdrDec h).1 d)

/-- `PKT_FINAL` (R65 row 2): "store fragment at 0, then complete". -/
def execPktFinal (d : Bytes) (s : State) : Host.Outcome State Fault Refusal :=
  (s.takeFragment 0 d).complete

/-- `PKT_NONFINAL` (R65 row 3): "store fragment at `B[0]`". -/
def execPktNonfinal (o : Byte) (d : Bytes) (s : State) : Host.Outcome State Fault Refusal :=
  .next (s.takeFragment o.toNat d)

end Sys2Proof.Machine
end

