-- ==== Sys2Proof/Machine/Dispatch.lean ====
section
/-! DEFINITION. One arm per row of spec/opcode_table.json. -/

namespace Sys2Proof.Machine

/-- What executing a row does: one direct call of its meaning. -/
def exec (i : Instr) (s : State) : Host.Outcome State Fault Refusal :=
  match i with
  | .frame p c => Sys2Proof.Machine.execFrame p c s
  | .pktFinal d => Sys2Proof.Machine.execPktFinal d s
  | .pktNonfinal o d => Sys2Proof.Machine.execPktNonfinal o d s
  | .cks8 bs => Sys2Proof.Machine.execCks8 bs s
  | .cks8Gen p => Sys2Proof.Machine.execCks8Gen p s
  | .cks8Chk f => Sys2Proof.Machine.execCks8Chk f s
  | .hdrEnc off => Sys2Proof.Machine.execHdrEnc off s
  | .hdrDec h => Sys2Proof.Machine.execHdrDec h s
  | .frag p => Sys2Proof.Machine.execFrag p s
  | .txStart p => Sys2Proof.Machine.execTxStart p s
  | .txAck => Sys2Proof.Machine.execTxAck s
  | .rxPacket b => Sys2Proof.Machine.execRxPacket b s
  | .rxClear => Sys2Proof.Machine.execRxClear s
  | .abort => Sys2Proof.Machine.execAbort s
  | .reset => Sys2Proof.Machine.execReset s
  | .pktOut bytes => Sys2Proof.Machine.execPktOut bytes s
  | .txDone => Sys2Proof.Machine.execTxDone s
  | .frameOut out ok => Sys2Proof.Machine.execFrameOut out ok s
  | .refused r => Sys2Proof.Machine.execRefused r s

end Sys2Proof.Machine
end

