-- ==== Sys2Proof/Machine/Step.lean ====
section
/-! DEFINITION. One step: the next feed of the environment is taken, decoded and executed (20_memory.md R46, R47). -/

namespace Sys2Proof.Machine

/-- The state with the feeds `fs` still to come. -/
def State.withPending (s : State) (fs : List Feed) : State := { s with pending := fs }

/-- One event applied (R47). With no feed pending the block does nothing: it "takes no step of its own" (R46), and idle "is
simply the absence of events" (60_exceptions.md R174; log 15). A feed that no encoding decodes is refused by name (log 16). -/
def step (s : State) : Host.Outcome State Fault Refusal :=
  match s.pending with
  | [] => .next s
  | f :: fs =>
    match decode s.params f with
    | .ok i => exec i (s.withPending fs)
    | .bad e => .refused (.undecodable e)

/-- `s` with a table word as the next feed: the notification whose bytes the word numbers (log 3, 12). -/
def State.withFetchWord (s : State) (nbits w : Nat) : State :=
  s.withPending (tableFeed nbits w :: s.pending)

end Sys2Proof.Machine
end

