-- ==== Sys2Proof/Safety.lean ====
section
/-! DEFINITION. The invariant of the block's state (10_state.md R22 to R26), runs of several rows, the two sides of the block
(20_memory.md R52), the streams of 43_reassembler.md, and the duties of the host and the transport (70_reset_and_hazards.md). -/

namespace Sys2Proof.Machine

/-- The states the block can be in. -/
structure Inv (s : State) : Prop where
  /-- The constraints on the parameters (00_scope.md R6). -/
  params : s.params.valid
  /-- TXB is in canonical form and within `TX_CAP` (20_memory.md R40). -/
  txMem : s.txBuf.wf s.params.txCap = true
  /-- RXB is in canonical form and within `RX_CAP` (20_memory.md R40). -/
  rxMem : s.rxBuf.wf s.params.rxCap = true
  /-- R23, R24: while idle no frame is loaded and the offset is 0. -/
  idle : s.txState = .idle → s.txFlen = 0 ∧ s.txOff = 0
  /-- R23: while sending the frame's length is 2..TX_CAP. -/
  flen : s.txState = .sending → 2 ≤ s.txFlen ∧ s.txFlen ≤ s.params.txCap
  /-- R24: while sending the offset is 0, or `r + PS*j` with the whole fragment inside the frame. -/
  off : s.txState = .sending → s.txOff = 0 ∨
    ∃ j, s.txOff = headLen s.params.ps s.txFlen + s.params.ps * j ∧ s.txOff + s.params.ps ≤ s.txFlen
  /-- R22: while sending TXB holds a payload followed by its checksum. -/
  frame : s.txState = .sending → cks8Chk (s.txBuf.readBytes 0 s.txFlen) = true
  /-- R26, R44: `rx_len` never exceeds `RX_CAP`. -/
  rxLen : s.rxLen ≤ s.params.rxCap
  /-- R25, R128: no byte at or above `rx_len` has been stored since the reassembler was last cleared. -/
  rxAbove : ∀ a, s.rxLen ≤ a → s.rxBuf.read a = 0x00

/-- Several rows one after another, stopping at the first fault or refusal. -/
def execAll : List Instr → State → Host.Outcome State Fault Refusal
  | [], s => .next s
  | i :: is, s =>
    match exec i s with
    | .next t => execAll is t
    | .fault r => .fault r
    | .refused r => .refused r

/-- The events of the transmit side (20_memory.md R52). -/
def isTxEvent : Instr → Bool
  | .txStart _ => true
  | .txAck => true
  | _ => false

/-- The events of the receive side (20_memory.md R52), the packet rows among them. -/
def isRxEvent : Instr → Bool
  | .rxPacket _ => true
  | .rxClear => true
  | .pktFinal _ => true
  | .pktNonfinal _ _ => true
  | _ => false

/-- The rows that only compute: the pure functions and `FRAME` (30_encoding.md R72). -/
def isPure : Instr → Bool
  | .frame _ _ => true
  | .cks8 _ => true
  | .cks8Gen _ => true
  | .cks8Chk _ => true
  | .hdrEnc _ => true
  | .hdrDec _ => true
  | .frag _ => true
  | _ => false

/-- The rows that are output events (60_exceptions.md R166). -/
def isOutput : Instr → Bool
  | .pktOut _ => true
  | .txDone => true
  | .frameOut _ _ => true
  | .refused _ => true
  | _ => false

/-- The transmit side is the same in both states. -/
def sameTx (s t : State) : Prop :=
  t.txState = s.txState ∧ t.txBuf = s.txBuf ∧ t.txFlen = s.txFlen ∧ t.txOff = s.txOff

/-- The receive side is the same in both states. -/
def sameRx (s t : State) : Prop := t.rxBuf = s.rxBuf ∧ t.rxLen = s.rxLen

/-- The transmit side's outputs, in order (20_memory.md R48, R52). -/
def State.txOutputs (s : State) : List OutEvent := s.outputs.filter (fun e => e.fromTx)

/-- The receive side's outputs, in order (20_memory.md R48, R52). -/
def State.rxOutputs (s : State) : List OutEvent := s.outputs.filter (fun e => !e.fromTx)

/-- The byte at RXB address `a` once the fragment `d` has been placed at `pos` (43_reassembler.md R127). -/
def placedByte (s : State) (pos : Nat) (d : Bytes) (a : Nat) : Byte :=
  if pos ≤ a ∧ a < pos + d.length ∧ a < s.params.rxCap then d.getD (a - pos) 0x00 else s.rxBuf.read a

/-- `rx_len` once a fragment of `k` bytes has been placed at `pos` (43_reassembler.md R128). -/
def lenAfter (s : State) (pos k : Nat) : Nat := max s.rxLen (min (pos + k) s.params.rxCap)

/-- The notifications of a list of packets, in order. -/
def notifications (pkts : List Bytes) : List Instr := pkts.map Instr.rxPacket

/-- What the environment owes the block, event by event: single in-flight frame (R188), one acknowledgement per packet (R189),
frame size (R192), no empty payload (R193), packets of 2..PKT_MAX bytes (R187, 93_implementation_defined.md U8). The block
checks none of it beyond R113. -/
def safeEvent (s : State) : Instr → Bool
  | .txStart p => s.txState == .idle && decide (1 ≤ p.length ∧ p.length + 1 ≤ Config.fSup ∧ p.length + 1 ≤ s.params.txCap)
  | .txAck => s.txState == .sending
  | .rxPacket b => decide (2 ≤ b.length ∧ b.length ≤ s.params.pktMax)
  | i => i.issuer.isSome

end Sys2Proof.Machine
end

