-- ==== Sys2Proof/Certificates/Slice0/Obligations.lean ====
section
/-! DEFINITION. The statements about the block, in the order of the spec's files. Each docstring names the rule of spec/ it is
read from; where a clause rests on a choice of the spec's own (a decision D<n> of 92_eei_decisions.md, a consequence marked
"derived") or on a choice of the model (a log entry), the docstring says so. -/

open Sys2Proof Sys2Proof.Machine

/-! ### Steps and encodings -/

/-- A step applies the next feed: a feed that decodes to `i` is taken off the input list and `exec i` is the step; with no feed
the block takes no step of its own (20_memory.md R46); a feed no encoding decodes stops the machine by name. How feeds are
held and decoded is the model's choice (log 3, 12, 15, 16). -/
def Obligations.StepRunsDecodedFeed : Prop :=
  ∀ s : State,
    (s.pending = [] → step s = .next s) ∧
    ∀ f fs, s.pending = f :: fs →
      (∀ i, decode s.params f = .ok i → step s = exec i (s.withPending fs)) ∧
      (∀ e, decode s.params f = .bad e → step s = .refused (.undecodable e))

/-- Words written out from the formats of 30_encoding.md R60 to R62, R65 and the notation of R71 decode to the rows they stand for. -/
def Obligations.WrittenWordsDecode : Prop :=
  decode Params.default { channel := .frame, bytes := [0x01, 0x02, 0x03, 0x06] } = .ok (.frame [0x01, 0x02, 0x03] 0x06) ∧
  decode Params.default { channel := .packet, bytes := [0x00, 0x01, 0x02, 0x03, 0x06] }
    = .ok (.pktFinal [0x01, 0x02, 0x03, 0x06]) ∧
  decode Params.default { channel := .packet, bytes := [0x13, 0xAA] } = .ok (.pktNonfinal 0x13 [0xAA]) ∧
  decode Params.default { channel := .line, bytes := [0x54, 0x58, 0x5F, 0x41, 0x43, 0x4B] } = .ok .txAck ∧
  decode Params.default { channel := .line, bytes := [0x52, 0x45, 0x53, 0x45, 0x54] } = .ok .reset ∧
  decodeTableWord 8 0 = some (.pktFinal []) ∧
  decodeTableWord 16 0xAA13 = some (.pktNonfinal 0x13 [0xAA])

/-- Decode and encode agree: the encoding of every well-formed row, with every operand, at every parameter value, decodes to that
row (30_encoding.md R60, R61, R65, R71). The line notation of the pure functions is the model's choice (log 13). -/
def Obligations.EncodedRowDecodesToItself : Prop :=
  ∀ (p : Params) (i : Instr), i.wf p = true → decode p (encode i) = .ok i

/-- The other direction on the byte formats: a frame's or a packet's bytes have one meaning, and encoding that meaning gives the
bytes back. The empty notification is left out: it is the row `RX_PACKET` with no bytes. -/
def Obligations.FrameAndPacketBytesHaveOneMeaning : Prop :=
  ∀ (p : Params) (f : Feed) (i : Instr), f.channel ≠ .line → f.bytes ≠ [] → decode p f = .ok i → encode i = f

/-- 30_encoding.md R65: a received byte sequence is classified by its length and first byte only; every byte sequence falls in
exactly one row, so the decoder is total. -/
def Obligations.PacketDecoderIsTotal : Prop :=
  ∀ (p : Params) (b : Bytes), ∃ i, decode p { channel := .packet, bytes := b } = .ok i ∧
    ((b = [] ∧ i = .rxPacket []) ∨
     (∃ d, b = 0x00 :: d ∧ i = .pktFinal d) ∨
     (∃ h d, h ≠ 0x00 ∧ b = h :: d ∧ i = .pktNonfinal h d))

/-- 30_encoding.md R65 with 43_reassembler.md R125: receiving a notification is receiving the packet row its bytes are. -/
def Obligations.NotificationActsAsItsPacketRow : Prop :=
  ∀ (s : State) (h : Byte) (d : Bytes),
    (h = 0x00 → exec (.rxPacket (h :: d)) s = exec (.pktFinal d) s) ∧
    (h ≠ 0x00 → exec (.rxPacket (h :: d)) s = exec (.pktNonfinal h d) s)

/-! ### Reset and the invariant -/

/-- 10_state.md R32 (values of the spec's own decision D15): what reset leaves. `tx_buf` is unspecified there and not stated. -/
def Obligations.ResetLeavesStatedValues : Prop :=
  State.reset.txState = .idle ∧ State.reset.txFlen = 0 ∧ State.reset.txOff = 0 ∧ State.reset.rxLen = 0 ∧
  (∀ a, State.reset.rxBuf.read a = 0x00) ∧ State.reset.params = { ps := 19, rxCap := 300, txCap := 300 }

/-- The invariant of 10_state.md R22 to R26 holds after reset. -/
def Obligations.InvHoldsAtReset : Prop := Inv State.reset

/-- Every step keeps the invariant of 10_state.md R22 to R26: the ranges of `tx_flen`, `tx_off` and `rx_len`, the frame in
`tx_buf`, the canonical form of both buffers, and nothing stored at or above `rx_len`. -/
def Obligations.StepKeepsInv : Prop :=
  ∀ s t : State, Inv s → step s = .next t → Inv t

/-- 60_exceptions.md R160 on the states the block can be in: every row, with any operand, gives a next state, and the block
accepts further events in it. -/
def Obligations.BlockNeverFaults : Prop :=
  ∀ (i : Instr) (s : State), Inv s → ∃ t, exec i s = .next t ∧ Inv t

/-- 10_state.md R28 (decision D16): the flags a host may want are functions of the state, both false after reset. -/
def Obligations.FlagsAreFunctionsOfState : Prop :=
  State.reset.txBusy = false ∧ State.reset.rxActive = false ∧
  ∀ s : State, (s.txBusy = true ↔ s.txState = .sending) ∧ (s.rxActive = true ↔ 0 < s.rxLen)

/-! ### The checksum (40_checksum8.md) and the frame format (30_encoding.md R60) -/

/-- `CKS8` gives the sum of the bytes modulo 256, and none of the block's state is read or written (40_checksum8.md R85). That the
row, run on its own, completes by appending this value to `results` is the model's DESIGN CHOICE (log 5). -/
def Obligations.Cks8GivesSumModulo256 : Prop :=
  ∀ (bs : Bytes) (s : State), ∃ c : Byte, c.toNat = (bs.map BitVec.toNat).sum % 256 ∧
    exec (.cks8 bs) s = .next { s with results := s.results ++ [.byte c] }

/-- `CKS8_GEN` gives the payload followed by its checksum (40_checksum8.md R86). That the row, run on its own, completes by appending
this value to `results` is the model's DESIGN CHOICE (log 5). -/
def Obligations.Cks8GenAppendsChecksum : Prop :=
  ∀ (p : Bytes) (s : State), ∃ c : Byte, c.toNat = (p.map BitVec.toNat).sum % 256 ∧
    exec (.cks8Gen p) s = .next { s with results := s.results ++ [.bytes (p ++ [c])] }

/-- On a frame of at least one byte, `CKS8_CHK` compares the sum of all bytes but the last with the last byte (40_checksum8.md R87).
That the row, run on its own, completes by appending this verdict to `results` is the model's DESIGN CHOICE (log 5). -/
def Obligations.Cks8ChkComparesLastByte : Prop :=
  ∀ (p : Bytes) (c : Byte) (s : State), ∃ ok : Bool,
    (ok = true ↔ (p.map BitVec.toNat).sum % 256 = c.toNat) ∧
    exec (.cks8Chk (p ++ [c])) s = .next { s with results := s.results ++ [.verdict ok] }

/-- `CKS8_CHK` of the empty sequence, which R87 calls outside the domain, completes with a verdict of which nothing is known
(the model's choice, log 9); that it is appended to `results` is the model's choice too (log 5). -/
def Obligations.Cks8ChkOfEmptyCompletes : Prop :=
  ∀ s : State, ∃ ok : Bool, exec (.cks8Chk []) s = .next { s with results := s.results ++ [.verdict ok] }

/-- R88 (b), a consequence the spec derives: the checksum of a concatenation is the sum of the checksums modulo 256. -/
def Obligations.ChecksumOfConcatenation : Prop :=
  ∀ a b : Bytes, (cks8 (a ++ b)).toNat = ((cks8 a).toNat + (cks8 b).toNat) % 256

/-- R88 (c), derived there: a generated frame is always valid. -/
def Obligations.GeneratedFrameIsValid : Prop := ∀ p : Bytes, cks8Chk (cks8Gen p) = true

/-- R88 (d), derived there: a valid frame with exactly one byte changed, payload or checksum, is not valid. -/
def Obligations.OneChangedByteIsDetected : Prop :=
  ∀ (f : Bytes) (i : Nat) (b : Byte) (hi : i < f.length), cks8Chk f = true → f[i] ≠ b → cks8Chk (f.set i b) = false

/-- R88 (e), derived there: the order of the payload bytes does not matter to the validator. -/
def Obligations.ReorderedPayloadIsNotDetected : Prop :=
  ∀ (p q : Bytes) (c : Byte), p.Perm q → cks8Chk (p ++ [c]) = cks8Chk (q ++ [c])

/-- R60: a frame of a payload of length `L` is its `L` bytes and then the checksum byte, valid only if that byte is the sum of the
payload modulo 256. That executing the row on its own presents the frame and its validity is the model's choice (log 6). -/
def Obligations.FrameIsPayloadThenChecksum : Prop :=
  ∀ (p : Bytes) (c : Byte) (s : State), ∃ valid : Bool,
    (valid = true ↔ (p.map BitVec.toNat).sum % 256 = c.toNat) ∧
    exec (.frame p c) s = .next { s with results := s.results ++ [.frame (p ++ [c]) valid] }

/-! ### The header codec (41_header_codec.md) -/

/-- `HDR_ENC(off) = off mod 256`, whatever the width of the offset (41_header_codec.md R95). That the row, run on its own, completes by
appending this byte to `results` is the model's DESIGN CHOICE (log 5). -/
def Obligations.HdrEncTruncatesOffset : Prop :=
  ∀ (off : Nat) (s : State), ∃ h : Byte, h.toNat = off % 256 ∧
    exec (.hdrEnc off) s = .next { s with results := s.results ++ [.byte h] }

/-- `HDR_DEC(h)` gives the header value as position, and `final` exactly when `zext(h) - 1` over the integers is -1, that is when `h`
is `0x00` (41_header_codec.md R96). That the row, run on its own, completes by appending this pair to `results` is the model's
DESIGN CHOICE (log 5). -/
def Obligations.HdrDecGivesPositionAndFinal : Prop :=
  ∀ (h : Byte) (s : State), ∃ final : Bool,
    (final = true ↔ (h.toNat : Int) - 1 = -1) ∧ (final = true ↔ h = 0x00) ∧
    exec (.hdrDec h) s = .next { s with results := s.results ++ [.position h.toNat final] }

/-- R97 (a) and (b), derived there: the decoded position is the offset exactly for offsets 0..255, and `final` holds exactly for
multiples of 256. -/
def Obligations.HeaderRoundTripsBelow256 : Prop :=
  ∀ off : Nat, ((hdrDec (hdrEnc off)).1 = off ↔ off ≤ 255) ∧ ((hdrDec (hdrEnc off)).2 = true ↔ off % 256 = 0)

/-! ### The fragmenter (42_fragmenter.md) -/

/-- `FRAG` (42_fragmenter.md R105 to R109) gives no packet for the empty payload. For a payload of length `L >= 1`, with `F = L + 1` and `r` the
head fragment's length, there are `n = (F - r) div PS + 1` packets, which is the ceiling of `F / PS`, and `F = r + PS*(n-1)`;
packet `k` is the header of `off(k)` and the frame's bytes from `off(k)`, where `off(k) = r + PS*(n-2-k)` with `PS` bytes for all
but the last packet, and 0 with `r` bytes for the last; so the highest offset comes first and offset 0 last.
That the row, run on its own, completes by appending this packet list to `results` is the model's DESIGN CHOICE (log 5). -/
def Obligations.FragGivesPacketsTailFirst : Prop :=
  ∀ (p : Bytes) (s : State), s.params.valid → ∃ pkts : List Bytes,
    exec (.frag p) s = .next { s with results := s.results ++ [.packets pkts] } ∧
    (p = [] → pkts = []) ∧
    (p ≠ [] → ∃ (c : Byte) (r n : Nat),
      c.toNat = (p.map BitVec.toNat).sum % 256 ∧
      r = (if (p.length + 1) % s.params.ps = 0 then s.params.ps else (p.length + 1) % s.params.ps) ∧
      n = (p.length + 1 - r) / s.params.ps + 1 ∧ n = (p.length + 1 + s.params.ps - 1) / s.params.ps ∧
      p.length + 1 = r + s.params.ps * (n - 1) ∧ pkts.length = n ∧
      (∀ k, k + 1 < n → pkts[k]? =
        some (BitVec.ofNat 8 (r + s.params.ps * (n - 2 - k)) ::
          ((p ++ [c]).drop (r + s.params.ps * (n - 2 - k))).take s.params.ps)) ∧
      pkts[n - 1]? = some (0x00 :: (p ++ [c]).take r))

/-- R116 (a) and (c), derived there: the fragments, taken from the last packet sent to the first, are the frame, each byte once;
the bytes handed to the transport total `F + n`. -/
def Obligations.FragmentsCoverFrame : Prop :=
  ∀ (ps : Nat) (p : Bytes), 1 ≤ ps → p ≠ [] →
    ((frag ps p).reverse.map List.tail).flatten = cks8Gen p ∧
    ((frag ps p).map List.length).sum = (p.length + 1) + (frag ps p).length

/-- R116 (d) and (e), derived there: the headers are `F - PS, F - 2*PS, ...`, each modulo 256, and then 0 in the last packet. -/
def Obligations.HeadersStepDownByPacketSize : Prop :=
  ∀ (ps : Nat) (p : Bytes) (k : Nat) (hk : k < (frag ps p).length), 1 ≤ ps →
    (frag ps p)[k].head?.map BitVec.toNat =
      some (if k + 1 < (frag ps p).length then (p.length + 1 - ps * (k + 1)) % 256 else 0)

/-- R109, R110, R113: `TX_START` while sending is refused `Busy`, whatever the payload; while idle, the empty payload changes
nothing, and a payload whose frame does not fit `TX_CAP` is refused `TooLong`. A refusal changes no state and emits only itself
(the spec's own decisions D10, D11). -/
def Obligations.TxStartRefusals : Prop :=
  ∀ (p : Bytes) (s : State),
    (s.txState = .sending → exec (.txStart p) s = .next { s with outputs := s.outputs ++ [.refused .busy] }) ∧
    (s.txState = .idle → p = [] → exec (.txStart p) s = .next s) ∧
    (s.txState = .idle → p ≠ [] → s.params.txCap < p.length + 1 →
      exec (.txStart p) s = .next { s with outputs := s.outputs ++ [.refused .tooLong] })

/-- R110: an accepted `TX_START` writes the frame to `tx_buf[0:F)` and leaves every other byte of it, sets `tx_flen` to `F`,
`tx_off` to `F - PS` or 0 and `tx_state` to `Sending`, emits the first packet of R107, and changes nothing else. The conditions
are the spec's own decisions D10, D11. -/
def Obligations.TxStartLoadsFrame : Prop :=
  ∀ (p : Bytes) (s : State), Inv s → s.txState = .idle → 1 ≤ p.length → p.length + 1 ≤ s.params.txCap →
    ∃ (m : Memory) (pkt : Bytes),
      exec (.txStart p) s = .next { s with
        txBuf := m, txFlen := p.length + 1,
        txOff := if s.params.ps < p.length + 1 then p.length + 1 - s.params.ps else 0,
        txState := .sending, outputs := s.outputs ++ [.pktOut pkt] } ∧
      (∀ a, m.read a = if a < p.length + 1 then (cks8Gen p).getD a 0x00 else s.txBuf.read a) ∧
      (frag s.params.ps p).head? = some pkt

/-- R111, R114: `TX_ACK` while idle changes nothing (decision D12); with the head packet outstanding the block becomes idle,
`tx_flen` becomes 0 and `TX_DONE` is emitted; otherwise `tx_off` becomes `max(tx_off - PS, 0)` and the packet at that offset is
emitted: its header and then `r` bytes of `tx_buf` at offset 0, `PS` bytes elsewhere. Nothing else changes. -/
def Obligations.TxAckSendsNextOrFinishes : Prop :=
  ∀ s : State,
    (s.txState = .idle → exec .txAck s = .next s) ∧
    (s.txState = .sending → s.txOff = 0 →
      exec .txAck s = .next { s with txState := .idle, txFlen := 0, outputs := s.outputs ++ [.txDone] }) ∧
    (Inv s → s.txState = .sending → s.txOff ≠ 0 →
      exec .txAck s = .next { s with
        txOff := s.txOff - s.params.ps,
        outputs := s.outputs ++ [.pktOut (BitVec.ofNat 8 (s.txOff - s.params.ps) ::
          (List.range (if s.txOff ≤ s.params.ps
              then (if s.txFlen % s.params.ps = 0 then s.params.ps else s.txFlen % s.params.ps)
              else s.params.ps)).map
            (fun i => s.txBuf.read (s.txOff - s.params.ps + i)))] })

/-- R110, R111, R112 together: an accepted payload and as many acknowledgements as it has packets emit exactly the packets of
`FRAG`, in order, and then `TX_DONE`, and leave the block idle; the receive side is as before. -/
def Obligations.TransmitRunEmitsFragThenDone : Prop :=
  ∀ (p : Bytes) (s : State), Inv s → s.txState = .idle → 1 ≤ p.length → p.length + 1 ≤ s.params.txCap →
    ∃ t, execAll (.txStart p :: List.replicate (frag s.params.ps p).length .txAck) s = .next t ∧
      t.outputs = s.outputs ++ (frag s.params.ps p).map OutEvent.pktOut ++ [.txDone] ∧
      t.txState = .idle ∧ t.txFlen = 0 ∧ t.txOff = 0 ∧ sameRx s t ∧
      t.params = s.params ∧ t.pending = s.pending ∧ t.results = s.results

/-- R115 (a) with the host's duties of 70_reset_and_hazards.md (`safeEvent`): while the frame has at most `F_SUP` = 255 bytes, a
`TX_START` that keeps them is never refused, and every packet it or a `TX_ACK` emits carries its exact offset as header. -/
def Obligations.SafeSendingUsesExactHeaders : Prop :=
  ∀ (i : Instr) (s : State), Inv s → isTxEvent i = true → safeEvent s i = true → s.txFlen ≤ 255 →
    ∃ t e, exec i s = .next t ∧ t.outputs = s.outputs ++ [e] ∧
      ((e = .txDone ∧ t.txState = .idle ∧ i = .txAck) ∨
       ∃ pkt, e = .pktOut pkt ∧ t.txState = .sending ∧ pkt.head?.map BitVec.toNat = some t.txOff)

/-- 20_memory.md R51 (decision D11): while a frame is being sent no row changes `tx_buf`, and `tx_flen` changes only as the
sending ends. -/
def Obligations.FrameIsFixedWhileSending : Prop :=
  ∀ (i : Instr) (s t : State), s.txState = .sending → exec i s = .next t →
    t.txBuf = s.txBuf ∧ (t.txState = .sending → t.txFlen = s.txFlen)

/-- R112: among the input events, `TX_DONE` is emitted by the `TX_ACK` of the head packet and by nothing else. -/
def Obligations.OnlyHeadAckEmitsTxDone : Prop :=
  ∀ (i : Instr) (s t : State), i.issuer.isSome = true → exec i s = .next t →
    (t.outputs = s.outputs ++ [.txDone] ↔ i = .txAck ∧ s.txState = .sending ∧ s.txOff = 0)

/-- 30_encoding.md R61, 60_exceptions.md R166: every packet the block emits for an input event has 2..PKT_MAX bytes, and while it
is outstanding it is the packet at `tx_off` (10_state.md R21, R24). -/
def Obligations.EmittedPacketIsTheOneAtTxOff : Prop :=
  ∀ (i : Instr) (s t : State) (pkt : Bytes), Inv s → i.issuer.isSome = true → exec i s = .next t →
    t.outputs = s.outputs ++ [.pktOut pkt] →
      2 ≤ pkt.length ∧ pkt.length ≤ s.params.ps + 1 ∧ t.txState = .sending ∧
      pkt.head? = some (BitVec.ofNat 8 t.txOff) ∧ t.txOff + (pkt.length - 1) ≤ t.txFlen ∧
      ∀ k, k + 1 < pkt.length → pkt[k + 1]? = some (t.txBuf.read (t.txOff + k))

/-- 10_state.md R22, derived there: the bytes of `tx_buf` at and above `tx_flen` are never observed. Two states that differ only in
them take the same steps, with the same outputs, and again differ only in them. -/
def Obligations.StaleTxBufferIsNeverObserved : Prop :=
  ∀ (i : Instr) (s : State) (m : Memory), Inv s → m.wf s.params.txCap = true →
    (∀ a, a < s.txFlen → m.read a = s.txBuf.read a) →
    ∃ t m', exec i s = .next t ∧ exec i { s with txBuf := m } = .next { t with txBuf := m' } ∧
      ∀ a, a < t.txFlen → m'.read a = t.txBuf.read a

/-- 42_fragmenter.md R115 (c), derived there: a frame of `256 + PS` bytes or more, which is 275 at the default, never reassembles
to its payload: no `FRAME_OUT` of its packets carries as many bytes as the payload has. -/
def Obligations.OversizeFrameNeverReassembles : Prop :=
  ∀ (p : Bytes) (s t : State), Inv s → s.rxLen = 0 → 256 + s.params.ps ≤ p.length + 1 →
    execAll (notifications (frag s.params.ps p)) s = .next t →
    ∃ es, t.outputs = s.outputs ++ es ∧ ∀ out ok, OutEvent.frameOut out ok ∈ es → out.length < p.length

/-! ### The reassembler (43_reassembler.md) -/

/-- R127: each byte of a non-final packet's fragment is stored at the header's position plus its index, if that is below `RX_CAP`,
and every other byte of `rx_buf` reads as before; both as the packet row and as a notification. Nothing but `rx_buf` and `rx_len`
changes. -/
def Obligations.NonfinalFragmentIsPlaced : Prop :=
  ∀ (o : Byte) (d : Bytes) (s : State), Inv s → o ≠ 0x00 → ∃ t,
    exec (.pktNonfinal o d) s = .next t ∧ exec (.rxPacket (o :: d)) s = .next t ∧
    t = { s with rxBuf := t.rxBuf, rxLen := t.rxLen } ∧
    ∀ a, t.rxBuf.read a =
      if o.toNat ≤ a ∧ a < o.toNat + d.length ∧ a < s.params.rxCap then d.getD (a - o.toNat) 0x00 else s.rxBuf.read a

/-- R128 (decision D3): after a non-final packet `rx_len` is the larger of its old value and the fragment's end, never more than
`RX_CAP`; nothing is emitted, and nothing but `rx_buf` and `rx_len` changes. -/
def Obligations.NonfinalFragmentRaisesLength : Prop :=
  ∀ (o : Byte) (d : Bytes) (s : State), o ≠ 0x00 → ∃ m,
    exec (.pktNonfinal o d) s
      = .next { s with rxBuf := m, rxLen := max s.rxLen (min (o.toNat + d.length) s.params.rxCap) } ∧
    exec (.rxPacket (o :: d)) s = exec (.pktNonfinal o d) s

/-- R126 (decision D8): an empty notification changes nothing and emits nothing. -/
def Obligations.EmptyNotificationIsIgnored : Prop := ∀ s : State, exec (.rxPacket []) s = .next s

/-- R129, R130, R131, R134, R135 (decisions D3, D4, D7, D16): a packet with header 0x00 places its fragment at 0 and completes the
frame. With `T = rx_len` as then written: for `T = 0` nothing is emitted; for `T >= 1` exactly one `FRAME_OUT` is emitted, with
`T - 1` bytes and the verdict of the checksum over the first `T - 1` bytes against byte `T - 1`; where the verdict is true they are
the bytes of the buffer. Either way the reassembler is cleared, and nothing else changes. -/
def Obligations.FinalPacketCompletesFrame : Prop :=
  ∀ (d : Bytes) (s : State), Inv s → ∃ t,
    exec (.pktFinal d) s = .next t ∧ exec (.rxPacket (0x00 :: d)) s = .next t ∧
    (lenAfter s 0 d.length = 0 → t = { s with rxLen := 0, rxBuf := [] }) ∧
    (1 ≤ lenAfter s 0 d.length → ∃ (out : Bytes) (ok : Bool),
      t = { s with rxLen := 0, rxBuf := [], outputs := s.outputs ++ [.frameOut out ok] } ∧
      out.length = lenAfter s 0 d.length - 1 ∧
      (ok = true ↔
        ((List.range (lenAfter s 0 d.length - 1)).map (fun a => (placedByte s 0 d a).toNat)).sum % 256
          = (placedByte s 0 d (lenAfter s 0 d.length - 1)).toNat) ∧
      (ok = true → ∀ a, a < lenAfter s 0 d.length - 1 → out[a]? = some (placedByte s 0 d a)))

/-- R132, R133, 60_exceptions.md R161: where the verdict is false the last two delivered bytes are 0x66, 0x02, the bytes before them
are delivered as received, and the length stays; a one-byte payload is delivered as 0x02 and an empty one as empty (decision D6). -/
def Obligations.MismatchMarksLastTwoBytes : Prop :=
  ∀ (d : Bytes) (s t : State) (out : Bytes), Inv s → exec (.pktFinal d) s = .next t →
    t.outputs = s.outputs ++ [.frameOut out false] →
      out.length = lenAfter s 0 d.length - 1 ∧
      (2 ≤ out.length → out.drop (out.length - 2) = [0x66, 0x02] ∧
        ∀ a, a + 2 < out.length → out[a]? = some (placedByte s 0 d a)) ∧
      (out.length = 1 → out = [0x02])

/-- R136, derived there: feeding the packets of `FRAG(P)` in order to a cleared reassembler emits exactly `FRAME_OUT(P, true)`, and
leaves the reassembler cleared and everything else as it was. The domain is `1 <= L` and `F <= min(255 + PS, RX_CAP)`, which is
`min(274, RX_CAP)` at the default. -/
def Obligations.FragThenReassembleGivesPayload : Prop :=
  ∀ (p : Bytes) (s : State), Inv s → s.rxLen = 0 → 1 ≤ p.length → p.length + 1 ≤ 255 + s.params.ps →
    p.length + 1 ≤ s.params.rxCap →
    execAll (notifications (frag s.params.ps p)) s
      = .next { s with outputs := s.outputs ++ [.frameOut p true] }

/-- R138, derived there: if exactly one fragment byte of a packet is changed on the way, one `FRAME_OUT` with a false verdict is
emitted, of the payload's length, ending in 0x66, 0x02 where the payload has two bytes or more. -/
def Obligations.OneCorruptedByteIsReported : Prop :=
  ∀ (p : Bytes) (s : State) (k j : Nat) (pkt : Bytes) (b old : Byte),
    Inv s → s.rxLen = 0 → 1 ≤ p.length → p.length + 1 ≤ 255 + s.params.ps → p.length + 1 ≤ s.params.rxCap →
    (frag s.params.ps p)[k]? = some pkt → pkt[j + 1]? = some old → old ≠ b →
    ∃ out, execAll (notifications ((frag s.params.ps p).set k (pkt.set (j + 1) b))) s
        = .next { s with outputs := s.outputs ++ [.frameOut out false] } ∧
      out.length = p.length ∧ (2 ≤ p.length → out.drop (p.length - 2) = [0x66, 0x02])

/-- R137 (d), derived there: a duplicated non-final packet has no effect. -/
def Obligations.DuplicateNonfinalHasNoEffect : Prop :=
  ∀ (o : Byte) (d : Bytes) (s t : State), Inv s → o ≠ 0x00 → exec (.rxPacket (o :: d)) s = .next t →
    exec (.rxPacket (o :: d)) t = .next t

/-- R137 (f), derived there: two non-final packets whose fragments do not overlap give the same state in either order. -/
def Obligations.NonfinalPacketsCommute : Prop :=
  ∀ (o q : Byte) (d e : Bytes) (s : State), Inv s → o ≠ 0x00 → q ≠ 0x00 → o.toNat + d.length ≤ q.toNat →
    ∃ t, execAll [.rxPacket (o :: d), .rxPacket (q :: e)] s = .next t ∧
      execAll [.rxPacket (q :: e), .rxPacket (o :: d)] s = .next t

/-! ### Control (44_control.md) -/

/-- R150 (decision D13): `RX_CLEAR` sets `rx_len` to 0 and every byte of `rx_buf` to 0x00, and changes nothing else. -/
def Obligations.RxClearClearsReassembler : Prop :=
  ∀ s : State, ∃ m : Memory, exec .rxClear s = .next { s with rxLen := 0, rxBuf := m } ∧ ∀ a, m.read a = 0x00

/-- R151, R152, 10_state.md R32 (decisions D14, D15): `ABORT` and `RESET`, from any state, return every state element but `tx_buf`
to its reset value and emit nothing; `tx_buf` is not written (20_memory.md R40). -/
def Obligations.AbortAndResetReturnToResetValues : Prop :=
  ∀ s : State, ∃ m : Memory, (∀ a, m.read a = 0x00) ∧
    exec .abort s = .next { s with txState := .idle, txFlen := 0, txOff := 0, rxLen := 0, rxBuf := m } ∧
    exec .reset s = .next { s with txState := .idle, txFlen := 0, txOff := 0, rxLen := 0, rxBuf := m }

/-! ### Output events (60_exceptions.md R166) -/

/-- An output event executed on its own is emitted, and nothing else changes (the model's choice, log 7). -/
def Obligations.OutputRowsEmitTheirEvent : Prop :=
  ∀ s : State,
    (∀ b, exec (.pktOut b) s = .next { s with outputs := s.outputs ++ [.pktOut b] }) ∧
    exec .txDone s = .next { s with outputs := s.outputs ++ [.txDone] } ∧
    (∀ out ok, exec (.frameOut out ok) s = .next { s with outputs := s.outputs ++ [.frameOut out ok] }) ∧
    (∀ r, exec (.refused r) s = .next { s with outputs := s.outputs ++ [.refused r] })

/-- Every row emits at most one output event, after those emitted before it (R48, R134, R166): the outputs only grow. -/
def Obligations.OneEventEmitsAtMostOneOutput : Prop :=
  ∀ (i : Instr) (s t : State), exec i s = .next t → t.outputs = s.outputs ∨ ∃ e, t.outputs = s.outputs ++ [e]

/-- 60_exceptions.md R163 (decisions D10, D11): among the input events only `TX_START` is ever refused, and a refusal changes
nothing but the outputs. -/
def Obligations.OnlyTxStartIsRefused : Prop :=
  ∀ (i : Instr) (s t : State) (r : Reason), i.issuer.isSome = true → exec i s = .next t →
    t.outputs = s.outputs ++ [.refused r] →
      t = { s with outputs := s.outputs ++ [.refused r] } ∧
      ∃ p, i = .txStart p ∧
        ((r = .busy ∧ s.txState = .sending) ∨
         (r = .tooLong ∧ s.txState = .idle ∧ p ≠ [] ∧ s.params.txCap < p.length + 1))

/-! ### Frames and the whole machine -/

/-- 20_memory.md R40 (decision D1): no event reaches the other side's buffer. `TX_START` and `TX_ACK` leave the receive side,
`RX_PACKET`, the packet rows and `RX_CLEAR` leave the transmit side, every byte of memory included. -/
def Obligations.NoEventReachesTheOtherSide : Prop :=
  ∀ (i : Instr) (s t : State), exec i s = .next t →
    (isTxEvent i = true → sameRx s t ∧ (∀ a, t.rxBuf.read a = s.rxBuf.read a) ∧ t.rxOutputs = s.rxOutputs) ∧
    (isRxEvent i = true → sameTx s t ∧ (∀ a, t.txBuf.read a = s.txBuf.read a) ∧ t.txOutputs = s.txOutputs)

/-- 20_memory.md R52, derived there: a transmit event and a receive event commute. Either order gives the same state elements and
the same outputs on each side. -/
def Obligations.TxAndRxEventsCommute : Prop :=
  ∀ (i j : Instr) (s : State), Inv s → isTxEvent i = true → isRxEvent j = true →
    ∃ t u, execAll [i, j] s = .next t ∧ execAll [j, i] s = .next u ∧
      sameTx t u ∧ sameRx t u ∧ t.params = u.params ∧ t.pending = u.pending ∧ t.results = u.results ∧
      t.txOutputs = u.txOutputs ∧ t.rxOutputs = u.rxOutputs

/-- The frame of the rows that only compute (R85 to R87, R95, R96, R105: no state read or written) and of the output events: every
state element, every byte of both buffers and the environment's input stay as they are. -/
def Obligations.PureAndOutputRowsTouchNoState : Prop :=
  ∀ (i : Instr) (s : State), isPure i = true ∨ isOutput i = true →
    ∃ t, exec i s = .next t ∧ sameTx s t ∧ sameRx s t ∧ t.params = s.params ∧ t.pending = s.pending ∧
      (∀ a, t.txBuf.read a = s.txBuf.read a) ∧ (∀ a, t.rxBuf.read a = s.rxBuf.read a) ∧
      (isPure i = true → t.outputs = s.outputs) ∧ (isOutput i = true → t.results = s.results)

/-- 10_state.md R29: no row changes a parameter; nor does any row but the step's fetch take an input, and no input event presents a
value of a pure function (the model's own fields, log 1, 3, 5). -/
def Obligations.ParametersNeverChange : Prop :=
  ∀ (i : Instr) (s t : State), exec i s = .next t →
    t.params = s.params ∧ t.pending = s.pending ∧ (i.issuer.isSome = true → t.results = s.results)

/-! ### The checksum functions and the receive clamp on their own, with none of the model's own fields -/

/-- 40_checksum8.md R85 to R87, the functions that `TX_START` and `RX_PACKET` use: `CKS8(s)` is the sum of the bytes over the integers
modulo 256; `CKS8_GEN(P) = P ++ [CKS8(P)]`; and for a frame of at least one byte `CKS8_CHK` holds exactly when the sum of all bytes
but the last, modulo 256, is the last byte. They take no state and give none. -/
def Obligations.ChecksumFunctionsGiveTheirValues : Prop :=
  (∀ bs : Bytes, (cks8 bs).toNat = (bs.map BitVec.toNat).sum % 256) ∧
  (∀ p : Bytes, cks8Gen p = p ++ [cks8 p]) ∧
  (∀ (f : Bytes) (hf : f ≠ []), cks8Chk f = true ↔ (f.dropLast.map BitVec.toNat).sum % 256 = (f.getLast hf).toNat)

/-- 20_memory.md R44: a fragment byte whose address is at or above `RX_CAP` is not stored and has no other effect. A notification acts
as the one without those bytes, in any state, so nothing reports the drop; every address from `RX_CAP` on reads as before, and
`rx_len` does not exceed `RX_CAP`. The third clause, that at the default parameters a packet of at most `PKT_MAX` bytes has no such
byte, is R44's last sentence, which the spec marks as derived there from 43_reassembler.md R127. -/
def Obligations.OutOfRangeReceiveBytesHaveNoEffect : Prop :=
  ∀ (h : Byte) (d : Bytes) (s : State),
    exec (.rxPacket (h :: d)) s = exec (.rxPacket (h :: d.take (s.params.rxCap - h.toNat))) s ∧
    (Inv s → ∃ t, exec (.rxPacket (h :: d)) s = .next t ∧ t.rxLen ≤ s.params.rxCap ∧
      ∀ a, s.params.rxCap ≤ a → t.rxBuf.read a = s.rxBuf.read a) ∧
    (s.params = Params.default → d.length + 1 ≤ s.params.pktMax → ∀ i, i < d.length → h.toNat + i < s.params.rxCap)
end

