-- ==== Sys2Proof/Laws/Checksum.lean ====
section
/-! SUPPORT. What the checksum functions give (40_checksum8.md R85 to R88): the sum, its additivity, and the validator on a frame
written as payload and last byte. -/

namespace Sys2Proof.Machine

theorem cks8_eq_sum (bs : Bytes) : cks8 bs = bs.sum := by
  have h : ∀ (acc : Byte) (l : Bytes), l.foldl (fun x b => x + b) acc = acc + l.sum := by
    intro acc l
    induction l generalizing acc with
    | nil => simp
    | cons b l ih => simp [ih, add_assoc]
  simp [cks8, h]

theorem toNat_sum (bs : Bytes) : (bs.sum : Byte).toNat = (bs.map BitVec.toNat).sum % 256 := by
  induction bs with
  | nil => rfl
  | cons b bs ih => simp [BitVec.toNat_add, ih]

/-- R85: the checksum as a number is the sum of the bytes modulo 256. -/
theorem cks8_toNat (bs : Bytes) : (cks8 bs).toNat = (bs.map BitVec.toNat).sum % 256 := by
  rw [cks8_eq_sum, toNat_sum]

@[simp] theorem cks8_nil : cks8 [] = 0 := rfl

/-- The checksum of a concatenation, as bytes. -/
theorem cks8_append (a b : Bytes) : cks8 (a ++ b) = cks8 a + cks8 b := by
  simp [cks8_eq_sum]

/-- R87 on a frame written as payload and checksum byte. -/
theorem cks8Chk_append (p : Bytes) (c : Byte) : cks8Chk (p ++ [c]) = (cks8 p == c) := by
  simp [cks8Chk]

@[simp] theorem cks8Gen_length (p : Bytes) : (cks8Gen p).length = p.length + 1 := by simp [cks8Gen]

theorem cks8Gen_ne_nil (p : Bytes) : cks8Gen p ≠ [] := by simp [cks8Gen]

@[simp] theorem cks8Gen_dropLast (p : Bytes) : (cks8Gen p).dropLast = p := by simp [cks8Gen]

end Sys2Proof.Machine
end

