-- ==== Sys2Proof/Laws/Geometry.lean ====
section
/-! SUPPORT. The fragment geometry of 42_fragmenter.md R106, R107, and the header codec of 41_header_codec.md. -/

namespace Sys2Proof.Machine

/-! ### The header codec -/

theorem hdrEnc_toNat (off : Nat) : (hdrEnc off).toNat = off % 256 := by simp [hdrEnc]

theorem hdrDec_pos (h : Byte) : (hdrDec h).1 = h.toNat := rfl

theorem hdrDec_final (h : Byte) : (hdrDec h).2 = true ↔ h = 0 := by
  have : h = 0 ↔ h.toNat = 0 := by rw [← BitVec.toNat_inj]; rfl
  rw [this]
  simp only [hdrDec, decide_eq_true_eq]
  omega

/-! ### The geometry -/

theorem headLen_pos {ps f : Nat} (h : 1 ≤ ps) : 1 ≤ headLen ps f := by
  rw [headLen]; split_ifs <;> omega

theorem headLen_le {ps f : Nat} (h : 1 ≤ ps) : headLen ps f ≤ ps := by
  rw [headLen]; split_ifs
  · exact le_refl _
  · exact (Nat.mod_lt _ h).le

theorem headLen_le_frame {ps f : Nat} (hf : 1 ≤ f) : headLen ps f ≤ f := by
  rw [headLen]; split_ifs with h0
  · exact Nat.le_of_dvd hf (Nat.dvd_of_mod_eq_zero h0)
  · exact Nat.mod_le _ _

theorem headLen_dvd {ps f : Nat} : ps ∣ f - headLen ps f := by
  rw [headLen]; split_ifs with h0
  · exact Nat.dvd_sub (Nat.dvd_of_mod_eq_zero h0) dvd_rfl
  · exact Nat.dvd_sub_mod f

theorem packetCount_pos (ps f : Nat) : 1 ≤ packetCount ps f := by simp [packetCount]

/-- R106: `F = r + PS*(n-1)`. -/
theorem frame_split {ps f : Nat} (hf : 1 ≤ f) :
    f = headLen ps f + ps * (packetCount ps f - 1) := by
  rw [packetCount, Nat.add_sub_cancel, Nat.mul_div_cancel' headLen_dvd]
  have := headLen_le_frame (ps := ps) hf
  omega

/-- The packets have room for the whole frame. -/
theorem frame_le_packets {ps f : Nat} (h : 1 ≤ ps) (hf : 1 ≤ f) : f ≤ ps * packetCount ps f := by
  have hs := frame_split (ps := ps) hf
  obtain ⟨m, hm⟩ : ∃ m, packetCount ps f = m + 1 := ⟨_, (Nat.sub_add_cancel (packetCount_pos ps f)).symm⟩
  rw [hm, Nat.add_sub_cancel] at hs
  have := headLen_le (f := f) h
  rw [hm, Nat.mul_succ]
  omega

/-- A frame that is a head of 1..PS bytes and `j` full fragments has that head length. -/
theorem headLen_of_split {ps r j : Nat} (h1 : 1 ≤ r) (h2 : r ≤ ps) : headLen ps (r + ps * j) = r := by
  rw [headLen, Nat.add_mul_mod_self_left]
  rcases Nat.lt_or_eq_of_le h2 with h | h
  · rw [Nat.mod_eq_of_lt h, if_neg (by omega)]
  · subst h; simp

theorem headLen_small {ps f : Nat} (h1 : 1 ≤ f) (h2 : f ≤ ps) : headLen ps f = f := by
  simpa using headLen_of_split (j := 0) h1 h2

/-- R107 from the end: packet `k`'s fragment ends `PS*k` bytes below the frame's end. -/
theorem fragOff_add_fragLen {ps f k : Nat} (hf : 1 ≤ f) (hk : k < packetCount ps f) :
    fragOff ps f k + fragLen ps f k + ps * k = f := by
  have hs := frame_split (ps := ps) hf
  rw [fragOff, fragLen]
  split_ifs with h1
  · obtain ⟨m, hm⟩ : ∃ m, packetCount ps f = k + 2 + m := ⟨packetCount ps f - (k + 2), by omega⟩
    rw [hm] at hs ⊢
    rw [show k + 2 + m - 2 - k = m by omega]
    rw [show k + 2 + m - 1 = m + 1 + k by omega] at hs
    nlinarith
  · have : packetCount ps f - 1 = k := by omega
    rw [this] at hs
    omega

theorem fragLen_pos {ps f k : Nat} (h : 1 ≤ ps) : 1 ≤ fragLen ps f k := by
  rw [fragLen]; split_ifs
  · exact h
  · exact headLen_pos h

theorem fragLen_le {ps f k : Nat} (h : 1 ≤ ps) : fragLen ps f k ≤ ps := by
  rw [fragLen]; split_ifs
  · exact le_refl _
  · exact headLen_le h

/-- Only the last packet has offset 0. -/
theorem fragOff_eq_zero {ps f k : Nat} (h : 1 ≤ ps) (hk : k < packetCount ps f) :
    fragOff ps f k = 0 ↔ k + 1 = packetCount ps f := by
  rw [fragOff]
  have := headLen_pos (f := f) h
  split_ifs with h1 <;> omega

/-- `flen(k)` is the length `TXPKT` reads at `off(k)`. -/
theorem fragLenAt_fragOff {ps f k : Nat} (h : 1 ≤ ps) (hk : k < packetCount ps f) :
    fragLenAt ps f (fragOff ps f k) = fragLen ps f k := by
  rw [fragLenAt, fragLen]
  by_cases h1 : k + 1 < packetCount ps f
  · rw [if_neg (by rw [fragOff_eq_zero h hk]; omega), if_pos h1]
  · rw [if_pos ((fragOff_eq_zero h hk).2 (by omega)), if_neg h1]

/-- `TX_START` starts at `off(0)`. -/
theorem firstOff_eq {ps f : Nat} (h : 1 ≤ ps) (hf : 1 ≤ f) : firstOff ps f = fragOff ps f 0 := by
  have he := fragOff_add_fragLen (ps := ps) hf (packetCount_pos ps f)
  by_cases h1 : 0 + 1 < packetCount ps f
  · have hl : fragLen ps f 0 = ps := by rw [fragLen, if_pos h1]
    have hz : fragOff ps f 0 ≠ 0 := by rw [Ne, fragOff_eq_zero h (packetCount_pos ps f)]; omega
    rw [firstOff, if_pos (by omega)]; omega
  · have hz := (fragOff_eq_zero h (packetCount_pos ps f)).2 (by have := packetCount_pos ps f; omega)
    have hl := fragLen_le (f := f) (k := 0) h
    rw [firstOff, if_neg (by omega), hz]

/-- `TX_ACK` moves from `off(k)` to `off(k+1)`. -/
theorem nextOff_eq {ps f k : Nat} (h : 1 ≤ ps) (hf : 1 ≤ f) (hk : k + 1 < packetCount ps f) :
    nextOff ps (fragOff ps f k) = fragOff ps f (k + 1) := by
  have e0 := fragOff_add_fragLen (ps := ps) hf (by omega : k < packetCount ps f)
  have e1 := fragOff_add_fragLen (ps := ps) hf hk
  have l0 : fragLen ps f k = ps := by rw [fragLen, if_pos hk]
  rw [nextOff]
  have hm : ps * (k + 1) = ps * k + ps := by ring
  have l1 := fragLen_le (f := f) (k := k + 1) h
  by_cases h1 : k + 1 + 1 < packetCount ps f
  · have : fragLen ps f (k + 1) = ps := by rw [fragLen, if_pos h1]
    omega
  · have := (fragOff_eq_zero h hk).2 (by omega)
    omega

end Sys2Proof.Machine
end

