-- ==== Sys2Proof/Laws/Memory.lean ====
section
/-! SUPPORT. The laws of the two buffers: read after write, the canonical form kept, equal reads give equal memories, and what
the wide accesses and the clamped placement do byte by byte (20_memory.md R40 to R45). -/

namespace Sys2Proof.Machine

/-! ### The canonical form -/

theorem Memory.wfFrom_cons {cap lo k : Nat} {v : Byte} {m : Memory} :
    Memory.wfFrom cap lo ((k, v) :: m) = true ↔
      lo ≤ k ∧ k < cap ∧ v ≠ Memory.unlisted ∧ Memory.wfFrom cap (k + 1) m = true := by
  simp [Memory.wfFrom, and_assoc]

theorem Memory.wfFrom_mono {cap lo lo' : Nat} {m : Memory} (h : Memory.wfFrom cap lo m = true) (hl : lo' ≤ lo) :
    Memory.wfFrom cap lo' m = true := by
  cases m with
  | nil => rfl
  | cons c m =>
    obtain ⟨k, v⟩ := c
    rw [Memory.wfFrom_cons] at h ⊢
    exact ⟨hl.trans h.1, h.2⟩

@[simp] theorem Memory.wf_nil (cap : Nat) : Memory.wf cap [] = true := rfl

@[simp] theorem Memory.read_nil (a : Nat) : Memory.read [] a = Memory.unlisted := rfl

theorem Memory.read_below {cap lo : Nat} {m : Memory} (h : Memory.wfFrom cap lo m = true) {a : Nat} (ha : a < lo) :
    m.read a = Memory.unlisted := by
  induction m generalizing lo with
  | nil => rfl
  | cons c m ih =>
    obtain ⟨k, v⟩ := c
    rw [Memory.wfFrom_cons] at h
    rw [Memory.read, if_neg (by omega)]
    exact ih h.2.2.2 (by omega)

theorem Memory.read_above_from {cap lo : Nat} {m : Memory} (h : Memory.wfFrom cap lo m = true) {a : Nat} (ha : cap ≤ a) :
    m.read a = Memory.unlisted := by
  induction m generalizing lo with
  | nil => rfl
  | cons c m ih =>
    obtain ⟨k, v⟩ := c
    rw [Memory.wfFrom_cons] at h
    rw [Memory.read, if_neg (by omega)]
    exact ih h.2.2.2

/-- No byte above the capacity is listed. -/
theorem Memory.read_above {cap : Nat} {m : Memory} (h : m.wf cap = true) {a : Nat} (ha : cap ≤ a) :
    m.read a = Memory.unlisted := Memory.read_above_from h ha

/-! ### One byte -/

theorem Memory.read_write_from {cap lo : Nat} {m : Memory} (h : Memory.wfFrom cap lo m = true) (a : Nat) (b : Byte)
    (x : Nat) : (m.write a b).read x = if x = a then b else m.read x := by
  induction m generalizing lo with
  | nil =>
    by_cases hb : b = Memory.unlisted <;> by_cases hx : x = a <;> simp [Memory.write, Memory.read, hb, hx]
    exact fun e => absurd e.symm hx
  | cons c m ih =>
    obtain ⟨k, v⟩ := c
    rw [Memory.wfFrom_cons] at h
    have low := fun {y : Nat} (hy : y < k + 1) => Memory.read_below h.2.2.2 hy
    have one : ∀ (y : Nat) (u : Byte) (r : Memory), Memory.read ((y, u) :: r) x = if y = x then u else r.read x :=
      fun _ _ _ => rfl
    rcases lt_trichotomy a k with hlt | heq | hgt
    · by_cases hb : b = Memory.unlisted
      · rw [Memory.write, if_pos hlt, if_pos hb]
        by_cases hx : x = a
        · rw [if_pos hx, one, if_neg (by omega), hb]; exact low (by omega)
        · rw [if_neg hx]
      · rw [Memory.write, if_pos hlt, if_neg hb, one]
        simp only [eq_comm]
    · subst heq
      by_cases hb : b = Memory.unlisted
      · rw [Memory.write, if_neg (by omega), if_pos rfl, if_pos hb, one]
        by_cases hx : x = a
        · rw [if_pos hx, hb]; exact low (by omega)
        · rw [if_neg hx, if_neg (fun e => hx e.symm)]
      · rw [Memory.write, if_neg (by omega), if_pos rfl, if_neg hb, one, one]
        by_cases hx : x = a
        · rw [if_pos hx, if_pos hx.symm]
        · rw [if_neg hx, if_neg (fun e => hx e.symm), if_neg (fun e => hx e.symm)]
    · rw [Memory.write, if_neg (by omega), if_neg (by omega), one, one, ih h.2.2.2]
      by_cases hk : k = x
      · rw [if_pos hk, if_pos hk, if_neg (by omega)]
      · rw [if_neg hk, if_neg hk]

/-- A read after a write: the byte written at its address, everything else as before. -/
theorem Memory.read_write {cap : Nat} {m : Memory} (h : m.wf cap = true) (a : Nat) (b : Byte) (x : Nat) :
    (m.write a b).read x = if x = a then b else m.read x := Memory.read_write_from h a b x

theorem Memory.wf_write_from {cap lo : Nat} {m : Memory} (h : Memory.wfFrom cap lo m = true) {a : Nat} (b : Byte)
    (ha : a < cap) (hl : lo ≤ a) : Memory.wfFrom cap lo (m.write a b) = true := by
  induction m generalizing lo with
  | nil =>
    rw [Memory.write]
    split_ifs with hb
    · rfl
    · exact Memory.wfFrom_cons.2 ⟨hl, ha, hb, rfl⟩
  | cons c m ih =>
    obtain ⟨k, v⟩ := c
    have h' := Memory.wfFrom_cons.1 h
    rw [Memory.write]
    split_ifs with h1 h2 h3 h4
    · exact h
    · exact Memory.wfFrom_cons.2 ⟨hl, ha, h2, Memory.wfFrom_cons.2 ⟨h1, h'.2⟩⟩
    · exact Memory.wfFrom_mono h'.2.2.2 (by omega)
    · exact Memory.wfFrom_cons.2 ⟨hl, ha, h4, h3 ▸ h'.2.2.2⟩
    · exact Memory.wfFrom_cons.2 ⟨h'.1, h'.2.1, h'.2.2.1, ih h'.2.2.2 (by omega)⟩

/-- A write below the capacity keeps the canonical form. -/
theorem Memory.wf_write {cap : Nat} {m : Memory} (h : m.wf cap = true) {a : Nat} (b : Byte) (ha : a < cap) :
    (m.write a b).wf cap = true := Memory.wf_write_from h b ha (Nat.zero_le a)

theorem Memory.ext_from {cap lo : Nat} {m m' : Memory} (h : Memory.wfFrom cap lo m = true)
    (h' : Memory.wfFrom cap lo m' = true) (e : ∀ a, m.read a = m'.read a) : m = m' := by
  induction m generalizing lo m' with
  | nil =>
    cases m' with
    | nil => rfl
    | cons c m' =>
      obtain ⟨k, v⟩ := c
      have := e k
      simp only [Memory.read, if_true] at this
      exact absurd this.symm (Memory.wfFrom_cons.1 h').2.2.1
  | cons c m ih =>
    obtain ⟨k, v⟩ := c
    have hm := Memory.wfFrom_cons.1 h
    cases m' with
    | nil =>
      have := e k
      simp only [Memory.read, if_true] at this
      exact absurd this hm.2.2.1
    | cons c' m' =>
      obtain ⟨k', v'⟩ := c'
      have hm' := Memory.wfFrom_cons.1 h'
      have hk : k = k' := by
        rcases lt_trichotomy k k' with hlt | heq | hgt
        · have := e k
          rw [Memory.read, if_pos rfl, Memory.read, if_neg (by omega),
            Memory.read_below hm'.2.2.2 (by omega)] at this
          exact absurd this hm.2.2.1
        · exact heq
        · have := e k'
          rw [Memory.read, if_neg (by omega), Memory.read_below hm.2.2.2 (by omega),
            Memory.read, if_pos rfl] at this
          exact absurd this.symm hm'.2.2.1
      subst hk
      have hv : v = v' := by simpa [Memory.read] using e k
      subst hv
      congr 1
      refine ih hm.2.2.2 hm'.2.2.2 fun a => ?_
      by_cases ha : a < k + 1
      · rw [Memory.read_below hm.2.2.2 ha, Memory.read_below hm'.2.2.2 ha]
      · simpa [Memory.read, show ¬k = a by omega] using e a

/-- Two buffers in canonical form that read the same everywhere are the same data. -/
theorem Memory.ext {cap : Nat} {m m' : Memory} (h : m.wf cap = true) (h' : m'.wf cap = true)
    (e : ∀ a, m.read a = m'.read a) : m = m' := Memory.ext_from h h' e

/-! ### Several bytes -/

@[simp] theorem Memory.readBytes_length (m : Memory) (a n : Nat) : (m.readBytes a n).length = n := by
  induction n generalizing a with
  | zero => rfl
  | succ n ih => simp [Memory.readBytes, ih]

theorem Memory.readBytes_getElem (m : Memory) (a n i : Nat) (h : i < (m.readBytes a n).length) :
    (m.readBytes a n)[i] = m.read (a + i) := by
  induction n generalizing a i with
  | zero => simp [Memory.readBytes] at h
  | succ n ih =>
    cases i with
    | zero => simp [Memory.readBytes]
    | succ i => simp only [Memory.readBytes, List.getElem_cons_succ, ih]; congr 1; omega

/-- A read of `n` bytes gives `d` exactly when each of its bytes does. -/
theorem Memory.readBytes_eq {m : Memory} {a : Nat} {d : Bytes} (h : ∀ i (hi : i < d.length), m.read (a + i) = d[i]) :
    m.readBytes a d.length = d :=
  List.ext_getElem (by simp) fun i h1 h2 => by rw [Memory.readBytes_getElem, h i h2]

theorem Memory.readBytes_congr {m m' : Memory} {a n : Nat} (h : ∀ i, i < n → m.read (a + i) = m'.read (a + i)) :
    m.readBytes a n = m'.readBytes a n :=
  List.ext_getElem (by simp) fun i h1 _ => by
    rw [Memory.readBytes_getElem, Memory.readBytes_getElem, h i (by simpa using h1)]

theorem Memory.readBytes_slice (m : Memory) (F a n : Nat) (h : a + n ≤ F) :
    m.readBytes a n = ((m.readBytes 0 F).drop a).take n :=
  List.ext_getElem (by simp; omega) fun i h1 h2 => by
    simp [Memory.readBytes_getElem]

/-- What `MemWrite` leaves at each address, and that the canonical form is kept. -/
theorem Memory.writeBytes_spec {cap : Nat} {m : Memory} (h : m.wf cap = true) (a : Nat) (d : Bytes)
    (hd : a + d.length ≤ cap) :
    (m.writeBytes a d).wf cap = true ∧
      ∀ x, (m.writeBytes a d).read x = if a ≤ x ∧ x < a + d.length then d.getD (x - a) 0x00 else m.read x := by
  induction d generalizing m a with
  | nil => exact ⟨h, fun x => by simp [Memory.writeBytes]⟩
  | cons b d ih =>
    simp only [List.length_cons] at hd
    obtain ⟨w, r⟩ := ih (Memory.wf_write h b (by omega : a < cap)) (a + 1) (by omega)
    refine ⟨w, fun x => ?_⟩
    rw [Memory.writeBytes, r x, Memory.read_write h]
    by_cases hx : x = a
    · subst hx; simp
    · by_cases hr : a ≤ x ∧ x < a + (d.length + 1)
      · rw [if_pos (by omega), if_pos (by simpa using hr), show x - a = (x - (a + 1)) + 1 by omega, List.getD_cons_succ]
      · rw [if_neg (by omega), if_neg hx, if_neg (by simp only [List.length_cons]; omega)]

/-- What a placed fragment leaves at each address (20_memory.md R44, 43_reassembler.md R127), and that the canonical form is
kept: the bytes of the fragment below the capacity, everything else as before. -/
theorem Memory.place_spec {cap : Nat} {m : Memory} (h : m.wf cap = true) (a : Nat) (d : Bytes) :
    (m.place cap a d).wf cap = true ∧
      ∀ x, (m.place cap a d).read x =
        if a ≤ x ∧ x < a + d.length ∧ x < cap then d.getD (x - a) 0x00 else m.read x := by
  induction d generalizing m a with
  | nil => exact ⟨h, fun x => by rw [Memory.place, if_neg (by simp only [List.length_nil]; omega)]⟩
  | cons b d ih =>
    have w' : (if a < cap then m.write a b else m).wf cap = true := by
      split_ifs with hc
      · exact Memory.wf_write h b hc
      · exact h
    obtain ⟨w, r⟩ := ih w' (a + 1)
    refine ⟨w, fun x => ?_⟩
    have one : (if a < cap then m.write a b else m).read x = if x = a ∧ a < cap then b else m.read x := by
      split_ifs with hc hx hx
      · rw [Memory.read_write h, if_pos hx.1]
      · rw [Memory.read_write h, if_neg (by tauto)]
      · exact absurd hx.2 hc
      · rfl
    rw [Memory.place, r x, one]
    by_cases hx : x = a
    · subst hx
      by_cases hc : x < cap
      · simp [hc]
      · simp [hc]
    · by_cases hr : a ≤ x ∧ x < a + (d.length + 1) ∧ x < cap
      · rw [if_pos (by omega), if_pos (by simpa using hr), show x - a = (x - (a + 1)) + 1 by omega, List.getD_cons_succ]
      · rw [if_neg (by omega), if_neg (by omega), if_neg (by simp only [List.length_cons]; omega)]

/-- `MemRead` answers the bytes exactly where every address exists. -/
theorem Memory.readIn_eq {cap : Nat} (m : Memory) {a n : Nat} (h : a + n ≤ cap) :
    m.readIn cap a n = some (m.readBytes a n) := by
  rw [Memory.readIn, if_pos (Or.inr h)]

/-- Placing a fragment is placing the part of it below `cap` (20_memory.md R44). -/
theorem Memory.place_take (cap : Nat) (m : Memory) (a : Nat) (d : Bytes) :
    m.place cap a (d.take (cap - a)) = m.place cap a d := by
  induction d generalizing m a with
  | nil => simp
  | cons b d ih =>
    by_cases h : a < cap
    · rw [show cap - a = cap - (a + 1) + 1 by omega, List.take_succ_cons]
      exact ih _ _
    · have ih' := ih m (a + 1)
      rw [show cap - (a + 1) = 0 by omega, List.take_zero] at ih'
      simpa [Memory.place, h, show cap - a = 0 by omega] using ih'

end Sys2Proof.Machine
end

