-- ==== Sys2Proof/Laws/State.lean ====
section
/-! SUPPORT. One lemma per field per named update of the state, true by rfl. -/

namespace Sys2Proof.Machine

/-! ### `State.emit` -/

@[simp] theorem State.emit_params (s : State) (e : OutEvent) : (s.emit e).params = s.params := rfl
@[simp] theorem State.emit_txState (s : State) (e : OutEvent) : (s.emit e).txState = s.txState := rfl
@[simp] theorem State.emit_txBuf (s : State) (e : OutEvent) : (s.emit e).txBuf = s.txBuf := rfl
@[simp] theorem State.emit_txFlen (s : State) (e : OutEvent) : (s.emit e).txFlen = s.txFlen := rfl
@[simp] theorem State.emit_txOff (s : State) (e : OutEvent) : (s.emit e).txOff = s.txOff := rfl
@[simp] theorem State.emit_rxBuf (s : State) (e : OutEvent) : (s.emit e).rxBuf = s.rxBuf := rfl
@[simp] theorem State.emit_rxLen (s : State) (e : OutEvent) : (s.emit e).rxLen = s.rxLen := rfl
@[simp] theorem State.emit_pending (s : State) (e : OutEvent) : (s.emit e).pending = s.pending := rfl
@[simp] theorem State.emit_outputs (s : State) (e : OutEvent) : (s.emit e).outputs = s.outputs ++ [e] := rfl
@[simp] theorem State.emit_results (s : State) (e : OutEvent) : (s.emit e).results = s.results := rfl

/-! ### `State.refuse` -/

@[simp] theorem State.refuse_params (s : State) (r : Reason) : (s.refuse r).params = s.params := rfl
@[simp] theorem State.refuse_txState (s : State) (r : Reason) : (s.refuse r).txState = s.txState := rfl
@[simp] theorem State.refuse_txBuf (s : State) (r : Reason) : (s.refuse r).txBuf = s.txBuf := rfl
@[simp] theorem State.refuse_txFlen (s : State) (r : Reason) : (s.refuse r).txFlen = s.txFlen := rfl
@[simp] theorem State.refuse_txOff (s : State) (r : Reason) : (s.refuse r).txOff = s.txOff := rfl
@[simp] theorem State.refuse_rxBuf (s : State) (r : Reason) : (s.refuse r).rxBuf = s.rxBuf := rfl
@[simp] theorem State.refuse_rxLen (s : State) (r : Reason) : (s.refuse r).rxLen = s.rxLen := rfl
@[simp] theorem State.refuse_pending (s : State) (r : Reason) : (s.refuse r).pending = s.pending := rfl
@[simp] theorem State.refuse_outputs (s : State) (r : Reason) : (s.refuse r).outputs = s.outputs ++ [.refused r] := rfl
@[simp] theorem State.refuse_results (s : State) (r : Reason) : (s.refuse r).results = s.results := rfl

/-! ### `State.answer` -/

@[simp] theorem State.answer_params (s : State) (r : FnResult) : (s.answer r).params = s.params := rfl
@[simp] theorem State.answer_txState (s : State) (r : FnResult) : (s.answer r).txState = s.txState := rfl
@[simp] theorem State.answer_txBuf (s : State) (r : FnResult) : (s.answer r).txBuf = s.txBuf := rfl
@[simp] theorem State.answer_txFlen (s : State) (r : FnResult) : (s.answer r).txFlen = s.txFlen := rfl
@[simp] theorem State.answer_txOff (s : State) (r : FnResult) : (s.answer r).txOff = s.txOff := rfl
@[simp] theorem State.answer_rxBuf (s : State) (r : FnResult) : (s.answer r).rxBuf = s.rxBuf := rfl
@[simp] theorem State.answer_rxLen (s : State) (r : FnResult) : (s.answer r).rxLen = s.rxLen := rfl
@[simp] theorem State.answer_pending (s : State) (r : FnResult) : (s.answer r).pending = s.pending := rfl
@[simp] theorem State.answer_outputs (s : State) (r : FnResult) : (s.answer r).outputs = s.outputs := rfl
@[simp] theorem State.answer_results (s : State) (r : FnResult) : (s.answer r).results = s.results ++ [r] := rfl

/-! ### `State.loadFrame` -/

@[simp] theorem State.loadFrame_params (s : State) (p : Bytes) : (s.loadFrame p).params = s.params := rfl
@[simp] theorem State.loadFrame_txState (s : State) (p : Bytes) : (s.loadFrame p).txState = .sending := rfl
@[simp] theorem State.loadFrame_txBuf (s : State) (p : Bytes) : (s.loadFrame p).txBuf = s.txBuf.writeBytes 0 (cks8Gen p) := rfl
@[simp] theorem State.loadFrame_txFlen (s : State) (p : Bytes) : (s.loadFrame p).txFlen = p.length + 1 := rfl
@[simp] theorem State.loadFrame_txOff (s : State) (p : Bytes) : (s.loadFrame p).txOff = firstOff s.params.ps (p.length + 1) := rfl
@[simp] theorem State.loadFrame_rxBuf (s : State) (p : Bytes) : (s.loadFrame p).rxBuf = s.rxBuf := rfl
@[simp] theorem State.loadFrame_rxLen (s : State) (p : Bytes) : (s.loadFrame p).rxLen = s.rxLen := rfl
@[simp] theorem State.loadFrame_pending (s : State) (p : Bytes) : (s.loadFrame p).pending = s.pending := rfl
@[simp] theorem State.loadFrame_outputs (s : State) (p : Bytes) : (s.loadFrame p).outputs = s.outputs := rfl
@[simp] theorem State.loadFrame_results (s : State) (p : Bytes) : (s.loadFrame p).results = s.results := rfl

/-! ### `State.advance` -/

@[simp] theorem State.advance_params (s : State) : (s.advance).params = s.params := rfl
@[simp] theorem State.advance_txState (s : State) : (s.advance).txState = s.txState := rfl
@[simp] theorem State.advance_txBuf (s : State) : (s.advance).txBuf = s.txBuf := rfl
@[simp] theorem State.advance_txFlen (s : State) : (s.advance).txFlen = s.txFlen := rfl
@[simp] theorem State.advance_txOff (s : State) : (s.advance).txOff = nextOff s.params.ps s.txOff := rfl
@[simp] theorem State.advance_rxBuf (s : State) : (s.advance).rxBuf = s.rxBuf := rfl
@[simp] theorem State.advance_rxLen (s : State) : (s.advance).rxLen = s.rxLen := rfl
@[simp] theorem State.advance_pending (s : State) : (s.advance).pending = s.pending := rfl
@[simp] theorem State.advance_outputs (s : State) : (s.advance).outputs = s.outputs := rfl
@[simp] theorem State.advance_results (s : State) : (s.advance).results = s.results := rfl

/-! ### `State.finishTx` -/

@[simp] theorem State.finishTx_params (s : State) : (s.finishTx).params = s.params := rfl
@[simp] theorem State.finishTx_txState (s : State) : (s.finishTx).txState = .idle := rfl
@[simp] theorem State.finishTx_txBuf (s : State) : (s.finishTx).txBuf = s.txBuf := rfl
@[simp] theorem State.finishTx_txFlen (s : State) : (s.finishTx).txFlen = 0 := rfl
@[simp] theorem State.finishTx_txOff (s : State) : (s.finishTx).txOff = s.txOff := rfl
@[simp] theorem State.finishTx_rxBuf (s : State) : (s.finishTx).rxBuf = s.rxBuf := rfl
@[simp] theorem State.finishTx_rxLen (s : State) : (s.finishTx).rxLen = s.rxLen := rfl
@[simp] theorem State.finishTx_pending (s : State) : (s.finishTx).pending = s.pending := rfl
@[simp] theorem State.finishTx_outputs (s : State) : (s.finishTx).outputs = s.outputs := rfl
@[simp] theorem State.finishTx_results (s : State) : (s.finishTx).results = s.results := rfl

/-! ### `State.clearTx` -/

@[simp] theorem State.clearTx_params (s : State) : (s.clearTx).params = s.params := rfl
@[simp] theorem State.clearTx_txState (s : State) : (s.clearTx).txState = .idle := rfl
@[simp] theorem State.clearTx_txBuf (s : State) : (s.clearTx).txBuf = s.txBuf := rfl
@[simp] theorem State.clearTx_txFlen (s : State) : (s.clearTx).txFlen = 0 := rfl
@[simp] theorem State.clearTx_txOff (s : State) : (s.clearTx).txOff = 0 := rfl
@[simp] theorem State.clearTx_rxBuf (s : State) : (s.clearTx).rxBuf = s.rxBuf := rfl
@[simp] theorem State.clearTx_rxLen (s : State) : (s.clearTx).rxLen = s.rxLen := rfl
@[simp] theorem State.clearTx_pending (s : State) : (s.clearTx).pending = s.pending := rfl
@[simp] theorem State.clearTx_outputs (s : State) : (s.clearTx).outputs = s.outputs := rfl
@[simp] theorem State.clearTx_results (s : State) : (s.clearTx).results = s.results := rfl

/-! ### `State.clearRx` -/

@[simp] theorem State.clearRx_params (s : State) : (s.clearRx).params = s.params := rfl
@[simp] theorem State.clearRx_txState (s : State) : (s.clearRx).txState = s.txState := rfl
@[simp] theorem State.clearRx_txBuf (s : State) : (s.clearRx).txBuf = s.txBuf := rfl
@[simp] theorem State.clearRx_txFlen (s : State) : (s.clearRx).txFlen = s.txFlen := rfl
@[simp] theorem State.clearRx_txOff (s : State) : (s.clearRx).txOff = s.txOff := rfl
@[simp] theorem State.clearRx_rxBuf (s : State) : (s.clearRx).rxBuf = [] := rfl
@[simp] theorem State.clearRx_rxLen (s : State) : (s.clearRx).rxLen = 0 := rfl
@[simp] theorem State.clearRx_pending (s : State) : (s.clearRx).pending = s.pending := rfl
@[simp] theorem State.clearRx_outputs (s : State) : (s.clearRx).outputs = s.outputs := rfl
@[simp] theorem State.clearRx_results (s : State) : (s.clearRx).results = s.results := rfl

/-! ### `State.takeFragment` -/

@[simp] theorem State.takeFragment_params (s : State) (pos : Nat) (d : Bytes) : (s.takeFragment pos d).params = s.params := rfl
@[simp] theorem State.takeFragment_txState (s : State) (pos : Nat) (d : Bytes) : (s.takeFragment pos d).txState = s.txState := rfl
@[simp] theorem State.takeFragment_txBuf (s : State) (pos : Nat) (d : Bytes) : (s.takeFragment pos d).txBuf = s.txBuf := rfl
@[simp] theorem State.takeFragment_txFlen (s : State) (pos : Nat) (d : Bytes) : (s.takeFragment pos d).txFlen = s.txFlen := rfl
@[simp] theorem State.takeFragment_txOff (s : State) (pos : Nat) (d : Bytes) : (s.takeFragment pos d).txOff = s.txOff := rfl
@[simp] theorem State.takeFragment_rxBuf (s : State) (pos : Nat) (d : Bytes) : (s.takeFragment pos d).rxBuf = s.rxBuf.place s.params.rxCap pos d := rfl
@[simp] theorem State.takeFragment_rxLen (s : State) (pos : Nat) (d : Bytes) : (s.takeFragment pos d).rxLen = max s.rxLen (min (pos + d.length) s.params.rxCap) := rfl
@[simp] theorem State.takeFragment_pending (s : State) (pos : Nat) (d : Bytes) : (s.takeFragment pos d).pending = s.pending := rfl
@[simp] theorem State.takeFragment_outputs (s : State) (pos : Nat) (d : Bytes) : (s.takeFragment pos d).outputs = s.outputs := rfl
@[simp] theorem State.takeFragment_results (s : State) (pos : Nat) (d : Bytes) : (s.takeFragment pos d).results = s.results := rfl

/-! ### `State.clearAll` -/

@[simp] theorem State.clearAll_params (s : State) : (s.clearAll).params = s.params := rfl
@[simp] theorem State.clearAll_txState (s : State) : (s.clearAll).txState = .idle := rfl
@[simp] theorem State.clearAll_txBuf (s : State) : (s.clearAll).txBuf = s.txBuf := rfl
@[simp] theorem State.clearAll_txFlen (s : State) : (s.clearAll).txFlen = 0 := rfl
@[simp] theorem State.clearAll_txOff (s : State) : (s.clearAll).txOff = 0 := rfl
@[simp] theorem State.clearAll_rxBuf (s : State) : (s.clearAll).rxBuf = [] := rfl
@[simp] theorem State.clearAll_rxLen (s : State) : (s.clearAll).rxLen = 0 := rfl
@[simp] theorem State.clearAll_pending (s : State) : (s.clearAll).pending = s.pending := rfl
@[simp] theorem State.clearAll_outputs (s : State) : (s.clearAll).outputs = s.outputs := rfl
@[simp] theorem State.clearAll_results (s : State) : (s.clearAll).results = s.results := rfl

/-! ### `State.withPending` -/

@[simp] theorem State.withPending_params (s : State) (fs : List Feed) : (s.withPending fs).params = s.params := rfl
@[simp] theorem State.withPending_txState (s : State) (fs : List Feed) : (s.withPending fs).txState = s.txState := rfl
@[simp] theorem State.withPending_txBuf (s : State) (fs : List Feed) : (s.withPending fs).txBuf = s.txBuf := rfl
@[simp] theorem State.withPending_txFlen (s : State) (fs : List Feed) : (s.withPending fs).txFlen = s.txFlen := rfl
@[simp] theorem State.withPending_txOff (s : State) (fs : List Feed) : (s.withPending fs).txOff = s.txOff := rfl
@[simp] theorem State.withPending_rxBuf (s : State) (fs : List Feed) : (s.withPending fs).rxBuf = s.rxBuf := rfl
@[simp] theorem State.withPending_rxLen (s : State) (fs : List Feed) : (s.withPending fs).rxLen = s.rxLen := rfl
@[simp] theorem State.withPending_pending (s : State) (fs : List Feed) : (s.withPending fs).pending = fs := rfl
@[simp] theorem State.withPending_outputs (s : State) (fs : List Feed) : (s.withPending fs).outputs = s.outputs := rfl
@[simp] theorem State.withPending_results (s : State) (fs : List Feed) : (s.withPending fs).results = s.results := rfl

end Sys2Proof.Machine
end

