-- ==== Sys2Proof/Laws/Ops.lean ====
section
/-! SUPPORT. What each shared operation of Machine/Ops.lean can do, said once, and the rows with several outcomes taken apart. -/

namespace Sys2Proof.Machine

/-! ### Sending a packet -/

/-- `TXPKT` where its bytes exist (20_memory.md R45). -/
theorem State.txPkt_eq {s : State} (h : s.txOff + fragLenAt s.params.ps s.txFlen s.txOff ≤ s.params.txCap) :
    s.txPkt = some (hdrEnc s.txOff :: s.txBuf.readBytes s.txOff (fragLenAt s.params.ps s.txFlen s.txOff)) := by
  rw [State.txPkt, Memory.readIn_eq _ h]

/-- Where the packet's bytes exist it is emitted, and nothing else changes. -/
theorem State.sendPkt_eq {s : State} (h : s.txOff + fragLenAt s.params.ps s.txFlen s.txOff ≤ s.params.txCap) :
    s.sendPkt = .next (s.emit (.pktOut
      (hdrEnc s.txOff :: s.txBuf.readBytes s.txOff (fragLenAt s.params.ps s.txFlen s.txOff)))) := by
  rw [State.sendPkt, State.txPkt_eq h]

/-- Whatever the state, sending a packet can only emit the packet at `tx_off`. -/
theorem State.sendPkt_next {s t : State} (h : s.sendPkt = .next t) :
    t = s.emit (.pktOut
      (hdrEnc s.txOff :: s.txBuf.readBytes s.txOff (fragLenAt s.params.ps s.txFlen s.txOff))) := by
  rw [State.sendPkt, State.txPkt, Memory.readIn] at h
  split_ifs at h with hc
  simpa using h.symm

/-! ### Completing a frame -/

/-- Completion with nothing accumulated (43_reassembler.md R130). -/
theorem State.complete_zero {s : State} (h : s.rxLen = 0) : s.complete = .next s.clearRx := by
  rw [State.complete, if_pos h]

/-- Completion of a frame of at least one byte (43_reassembler.md R131 to R135). -/
theorem State.complete_pos {s : State} (h : s.rxLen ≠ 0) (hc : s.rxLen ≤ s.params.rxCap) :
    s.complete = .next (s.emit (deliver (s.rxBuf.readBytes 0 s.rxLen))).clearRx := by
  rw [State.complete, if_neg h, Memory.readIn_eq _ (by omega)]

/-- Whatever the state, completion can only deliver the frame, if there is one, and clear. -/
theorem State.complete_next {s t : State} (h : s.complete = .next t) :
    (s.rxLen = 0 ∧ t = s.clearRx) ∨
      (s.rxLen ≠ 0 ∧ s.rxLen ≤ s.params.rxCap ∧ t = (s.emit (deliver (s.rxBuf.readBytes 0 s.rxLen))).clearRx) := by
  by_cases h0 : s.rxLen = 0
  · rw [State.complete_zero h0] at h
    exact .inl ⟨h0, by simpa using h.symm⟩
  · rw [State.complete, if_neg h0, Memory.readIn] at h
    split_ifs at h with hc
    exact .inr ⟨h0, by omega, by simpa using h.symm⟩

/-- The marked payload keeps its length (43_reassembler.md R132, R133). -/
@[simp] theorem markMismatch_length (out : Bytes) : (markMismatch out).length = out.length := by
  rw [markMismatch]
  split_ifs with h1 h2
  · simp; omega
  · simp [h2]
  · simp; omega

/-- The delivered event is a `FRAME_OUT` with the frame's length less one and the frame's verdict. -/
theorem deliver_eq (f : Bytes) : ∃ out, deliver f = .frameOut out (cks8Chk f) ∧ out.length = f.length - 1 ∧
    (cks8Chk f = true → out = f.dropLast) ∧ (cks8Chk f = false → out = markMismatch f.dropLast) := by
  cases h : cks8Chk f
  · exact ⟨markMismatch f.dropLast, by simp [deliver, h], by simp, by simp, by simp⟩
  · exact ⟨f.dropLast, by simp [deliver, h], by simp, by simp, by simp⟩

/-! ### The rows with several outcomes -/

/-- What `TX_START` can do (42_fragmenter.md R110, R113). -/
theorem execTxStart_next {p : Bytes} {s t : State} (h : execTxStart p s = .next t) :
    (s.txState = .sending ∧ t = s.refuse .busy) ∨
    (s.txState = .idle ∧ p = [] ∧ t = s) ∨
    (s.txState = .idle ∧ p ≠ [] ∧ s.params.txCap < p.length + 1 ∧ t = s.refuse .tooLong) ∨
    (s.txState = .idle ∧ p ≠ [] ∧ p.length + 1 ≤ s.params.txCap ∧ (s.loadFrame p).sendPkt = .next t) := by
  rw [execTxStart] at h
  have hs : s.txState ≠ .sending → s.txState = .idle := by cases s.txState <;> simp
  split_ifs at h with h1 h2 h3
  · exact .inl ⟨h1, by simpa using h.symm⟩
  · exact .inr (.inl ⟨hs h1, by simpa using h2, by simpa using h.symm⟩)
  · exact .inr (.inr (.inl ⟨hs h1, by simpa using h2, h3, by simpa using h.symm⟩))
  · exact .inr (.inr (.inr ⟨hs h1, by simpa using h2, by omega, h⟩))

/-- What `TX_ACK` can do (42_fragmenter.md R111, R114). -/
theorem execTxAck_next {s t : State} (h : execTxAck s = .next t) :
    (s.txState = .idle ∧ t = s) ∨
    (s.txState = .sending ∧ s.txOff = 0 ∧ t = s.finishTx.emit .txDone) ∨
    (s.txState = .sending ∧ s.txOff ≠ 0 ∧ s.advance.sendPkt = .next t) := by
  rw [execTxAck] at h
  have hs : s.txState ≠ .idle → s.txState = .sending := by cases s.txState <;> simp
  split_ifs at h with h1 h2
  · exact .inl ⟨h1, by simpa using h.symm⟩
  · exact .inr (.inl ⟨hs h1, h2, by simpa using h.symm⟩)
  · exact .inr (.inr ⟨hs h1, h2, h⟩)

/-- A notification with header 0x00 is received as a final packet (30_encoding.md R65). -/
theorem execRxPacket_final (d : Bytes) (s : State) : execRxPacket (0x00 :: d) s = (s.takeFragment 0 d).complete := rfl

/-- A notification with another header is received as a non-final packet (30_encoding.md R65). -/
theorem execRxPacket_nonfinal {h : Byte} (d : Bytes) (s : State) (hh : h ≠ 0x00) :
    execRxPacket (h :: d) s = .next (s.takeFragment h.toNat d) := by
  have : (hdrDec h).2 = false := by
    have := mt (hdrDec_final h).1 hh
    simpa using this
  simp [execRxPacket, this, hdrDec_pos]

end Sys2Proof.Machine
end

