-- ==== Sys2Proof/Laws/Frag.lean ====
section
/-! SUPPORT. The packets of a frame, one by one (42_fragmenter.md R105 to R109). -/

namespace Sys2Proof.Machine

theorem framePackets_length (ps : Nat) (f : Bytes) : (framePackets ps f).length = packetCount ps f.length := by
  simp [framePackets]

theorem framePackets_getElem? {ps : Nat} {f : Bytes} {k : Nat} (hk : k < packetCount ps f.length) :
    (framePackets ps f)[k]? = some (framePacket ps f k) := by
  simp [framePackets, List.getElem?_range hk]

@[simp] theorem frag_nil (ps : Nat) : frag ps [] = [] := rfl

theorem frag_cons {ps : Nat} {p : Bytes} (h : p ≠ []) : frag ps p = framePackets ps (cks8Gen p) := by simp [frag, h]

theorem frag_length {ps : Nat} {p : Bytes} (h : p ≠ []) : (frag ps p).length = packetCount ps (p.length + 1) := by
  rw [frag_cons h, framePackets_length, cks8Gen_length]

end Sys2Proof.Machine
end

