-- ==== Sys2Proof/Laws/Exec.lean ====
section
/-! SUPPORT. What the input events can do, said once (60_exceptions.md R165): every next state of an input event is one of the
cases of `InputCase`. Proofs about all input events take that apart instead of unfolding exec. -/

namespace Sys2Proof.Machine

theorem next_inj {u v : State} (e : (Host.Outcome.next u : Host.Outcome State Fault Refusal) = .next v) : v = u := by
  simpa using e.symm

/-- A run takes its first row's step first. -/
theorem execAll_cons {i : Instr} {is : List Instr} {s t : State} (h : exec i s = .next t) :
    execAll (i :: is) s = execAll is t := by
  simp [execAll, h]

/-- With the frame `f` in TXB and `tx_off` at its `k`-th packet, sending emits that packet. -/
theorem State.sendPkt_frame {s : State} {f : Bytes} {k : Nat} (h : 1 ≤ s.params.ps) (hf : f ≠ [])
    (hb : s.txBuf.readBytes 0 f.length = f) (hl : s.txFlen = f.length) (hc : f.length ≤ s.params.txCap)
    (hk : k < packetCount s.params.ps f.length) (ho : s.txOff = fragOff s.params.ps f.length k) :
    s.sendPkt = .next (s.emit (.pktOut (framePacket s.params.ps f k))) := by
  have hf1 : 1 ≤ f.length := List.length_pos_iff.2 hf
  have e := fragOff_add_fragLen (ps := s.params.ps) hf1 hk
  have hlen : fragLenAt s.params.ps s.txFlen s.txOff = fragLen s.params.ps f.length k := by
    rw [hl, ho, fragLenAt_fragOff h hk]
  rw [State.sendPkt_eq (by rw [hlen, ho]; omega), hlen, ho,
    Memory.readBytes_slice _ f.length _ _ (by omega), hb]
  rfl

/-- A loaded frame is what TXB reads back; the bytes above it are as before (42_fragmenter.md R110). -/
theorem State.loadFrame_read {s : State} {p : Bytes} (hw : s.txBuf.wf s.params.txCap = true) (hc : p.length + 1 ≤ s.params.txCap) :
    (s.loadFrame p).txBuf.wf s.params.txCap = true ∧
    (∀ a, (s.loadFrame p).txBuf.read a = if a < p.length + 1 then (cks8Gen p).getD a 0x00 else s.txBuf.read a) ∧
    (s.loadFrame p).txBuf.readBytes 0 (cks8Gen p).length = cks8Gen p := by
  obtain ⟨w, r⟩ := Memory.writeBytes_spec hw 0 (cks8Gen p) (by simpa using hc)
  refine ⟨w, fun a => ?_, Memory.readBytes_eq fun i hi => ?_⟩
  · rw [State.loadFrame_txBuf, r a]; simp
  · rw [State.loadFrame_txBuf, r]
    simp only [Nat.zero_add, Nat.zero_le, true_and, hi, if_true, Nat.sub_zero]
    exact (List.getElem_eq_getD _).symm

/-- The cases of an input event, from the state before to the state after. -/
inductive InputCase : Instr → State → State → Prop
  /-- `TX_START` refused `Busy` (R113). -/
  | busy {p s} : s.txState = .sending → InputCase (.txStart p) s (s.refuse .busy)
  /-- `TX_START` of the empty payload (R109). -/
  | empty {s} : s.txState = .idle → InputCase (.txStart []) s s
  /-- `TX_START` refused `TooLong` (R113). -/
  | long {p s} : s.txState = .idle → p ≠ [] → s.params.txCap < p.length + 1 →
      InputCase (.txStart p) s (s.refuse .tooLong)
  /-- `TX_START` accepted (R110). -/
  | start {p s t} : s.txState = .idle → p ≠ [] → p.length + 1 ≤ s.params.txCap →
      t = (s.loadFrame p).emit (.pktOut (hdrEnc (s.loadFrame p).txOff ::
        (s.loadFrame p).txBuf.readBytes (s.loadFrame p).txOff
          (fragLenAt s.params.ps (s.loadFrame p).txFlen (s.loadFrame p).txOff))) →
      InputCase (.txStart p) s t
  /-- `TX_ACK` ignored (R114). -/
  | ackIdle {s} : s.txState = .idle → InputCase .txAck s s
  /-- `TX_ACK` of the head packet (R111, R112). -/
  | ackDone {s} : s.txState = .sending → s.txOff = 0 → InputCase .txAck s (s.finishTx.emit .txDone)
  /-- `TX_ACK` of another packet (R111). -/
  | ackNext {s t} : s.txState = .sending → s.txOff ≠ 0 →
      t = s.advance.emit (.pktOut (hdrEnc s.advance.txOff ::
        s.advance.txBuf.readBytes s.advance.txOff (fragLenAt s.params.ps s.txFlen s.advance.txOff))) →
      InputCase .txAck s t
  /-- An empty notification (R126). -/
  | rxEmpty {s} : InputCase (.rxPacket []) s s
  /-- A non-final packet (R127, R128). -/
  | rxNon {h d s} : h ≠ 0 → InputCase (.rxPacket (h :: d)) s (s.takeFragment h.toNat d)
  /-- A final packet with nothing accumulated (R130). -/
  | rxZero {d s} : (s.takeFragment 0 d).rxLen = 0 → InputCase (.rxPacket (0 :: d)) s (s.takeFragment 0 d).clearRx
  /-- A final packet that completes a frame (R129, R131 to R135). -/
  | rxFin {d s} : (s.takeFragment 0 d).rxLen ≠ 0 → (s.takeFragment 0 d).rxLen ≤ s.params.rxCap →
      InputCase (.rxPacket (0 :: d)) s ((s.takeFragment 0 d).emit
        (deliver ((s.takeFragment 0 d).rxBuf.readBytes 0 (s.takeFragment 0 d).rxLen))).clearRx
  /-- `RX_CLEAR` (R150). -/
  | rxClear {s} : InputCase .rxClear s s.clearRx
  /-- `ABORT` (R151). -/
  | abort {s} : InputCase .abort s s.clearAll
  /-- `RESET` (R152). -/
  | reset {s} : InputCase .reset s s.clearAll

/-- Every next state of an input event is one of the cases. -/
theorem exec_inputCase {i : Instr} {s t : State} (hi : i.issuer.isSome = true) (h : exec i s = .next t) : InputCase i s t := by
  cases i with
  | txStart p =>
    rcases execTxStart_next h with ⟨h1, rfl⟩ | ⟨h1, rfl, rfl⟩ | ⟨h1, h2, h3, rfl⟩ | ⟨h1, h2, h3, h4⟩
    · exact .busy h1
    · exact .empty h1
    · exact .long h1 h2 h3
    · exact .start h1 h2 h3 (State.sendPkt_next h4)
  | txAck =>
    rcases execTxAck_next h with ⟨h1, rfl⟩ | ⟨h1, h2, rfl⟩ | ⟨h1, h2, h3⟩
    · exact .ackIdle h1
    · exact .ackDone h1 h2
    · exact .ackNext h1 h2 (State.sendPkt_next h3)
  | rxPacket b =>
    cases b with
    | nil => rw [next_inj h]; exact .rxEmpty
    | cons c d =>
      by_cases hc : c = 0
      · subst hc
        rcases State.complete_next h with ⟨h1, rfl⟩ | ⟨h1, h2, rfl⟩
        · exact .rxZero h1
        · exact .rxFin h1 h2
      · have h' : execRxPacket (c :: d) s = .next t := h
        rw [execRxPacket_nonfinal d s hc] at h'
        rw [next_inj h']; exact .rxNon hc
  | rxClear => rw [next_inj h]; exact .rxClear
  | abort => rw [next_inj h]; exact .abort
  | reset => rw [next_inj h]; exact .reset
  | _ => cases hi

end Sys2Proof.Machine
end

