-- ==== Sys2Proof/Laws/Text.lean ====
section
/-! SUPPORT. The text of a line: tokens cut and joined, bytes in hexadecimal and offsets in decimal read back (30_encoding.md R71,
log 13, 14). -/

namespace Sys2Proof

/-! ### Tokens -/

theorem splitTokens_word {t : Bytes} (h : spaceByte ∉ t) : splitTokens t = [t] := by
  induction t with
  | nil => rfl
  | cons b t ih =>
    simp only [List.mem_cons, not_or] at h
    rw [splitTokens, if_neg (fun e => h.1 e.symm), ih h.2]

theorem splitTokens_word_space {t rest : Bytes} (h : spaceByte ∉ t) :
    splitTokens (t ++ spaceByte :: rest) = t :: splitTokens rest := by
  induction t with
  | nil => rw [List.nil_append, splitTokens, if_pos rfl]
  | cons b t ih =>
    simp only [List.mem_cons, not_or] at h
    rw [List.cons_append, splitTokens, if_neg (fun e => h.1 e.symm), ih h.2]

/-- Cutting at the spaces undoes joining with spaces. -/
theorem splitTokens_joinTokens {ts : List Bytes} (hne : ts ≠ []) (h : ∀ t ∈ ts, spaceByte ∉ t) :
    splitTokens (joinTokens ts) = ts := by
  induction ts with
  | nil => exact absurd rfl hne
  | cons t ts ih =>
    cases ts with
    | nil => exact splitTokens_word (h t (by simp))
    | cons u ts =>
      rw [joinTokens, splitTokens_word_space (h t (by simp)), ih (by simp) (fun v hv => h v (by simp [hv]))]

/-! ### Bytes in hexadecimal -/

theorem byteOfToken_tokenOfByte : ∀ b : Byte, byteOfToken (tokenOfByte b) = some b := by decide

theorem tokenOfByte_no_space : ∀ b : Byte, spaceByte ∉ tokenOfByte b := by decide

/-- Bytes written as hex tokens are read back. -/
theorem bytesOfTokens_map (bs : Bytes) : bytesOfTokens (bs.map tokenOfByte) = some bs := by
  induction bs with
  | nil => rfl
  | cons b bs ih => rw [List.map_cons, bytesOfTokens, byteOfToken_tokenOfByte, ih]

theorem map_tokenOfByte_no_space (bs : Bytes) : ∀ t ∈ bs.map tokenOfByte, spaceByte ∉ t := by
  intro t ht
  obtain ⟨b, -, rfl⟩ := List.mem_map.1 ht
  exact tokenOfByte_no_space b

/-! ### Offsets in decimal -/

theorem decValue_digit : ∀ d : Fin 10, decValue (BitVec.ofNat 8 (0x30 + d.val)) = some d.val := by decide

theorem decValue_ofNat {d : Nat} (h : d < 10) : decValue (BitVec.ofNat 8 (0x30 + d)) = some d :=
  decValue_digit ⟨d, h⟩

theorem digit_ne_space : ∀ d : Fin 10, BitVec.ofNat 8 (0x30 + d.val) ≠ spaceByte := by decide

theorem readDecimal_append (acc : Nat) (a b : Bytes) :
    readDecimal acc (a ++ b) = (readDecimal acc a).bind (fun x => readDecimal x b) := by
  induction a generalizing acc with
  | nil => rfl
  | cons c a ih =>
    rw [List.cons_append, readDecimal, readDecimal]
    cases decValue c with
    | none => rfl
    | some d => exact ih _

theorem readDecimal_decimalDigits {fuel n : Nat} (h : n < fuel) : readDecimal 0 (decimalDigits fuel n) = some n := by
  induction fuel generalizing n with
  | zero => omega
  | succ fuel ih =>
    rw [decimalDigits]
    split_ifs with h10
    · rw [readDecimal, decValue_ofNat h10]; simp [readDecimal]
    · rw [readDecimal_append, ih (by omega), Option.bind_some, readDecimal, decValue_ofNat (Nat.mod_lt _ (by omega))]
      simp only [readDecimal]
      congr 1; omega

theorem decimalDigits_ne_nil (fuel n : Nat) : decimalDigits (fuel + 1) n ≠ [] := by
  rw [decimalDigits]; split_ifs <;> simp

/-- An offset written in decimal is read back. -/
theorem offsetOfToken_tokenOfOffset (n : Nat) : offsetOfToken (tokenOfOffset n) = some n := by
  have hr := readDecimal_decimalDigits (Nat.lt_succ_self n)
  rw [tokenOfOffset]
  cases hd : decimalDigits (n + 1) n with
  | nil => exact absurd hd (decimalDigits_ne_nil n n)
  | cons c cs => rw [offsetOfToken, ← hd]; exact hr

theorem decimalDigits_no_space (fuel n : Nat) : spaceByte ∉ decimalDigits fuel n := by
  induction fuel generalizing n with
  | zero => simp [decimalDigits]
  | succ fuel ih =>
    rw [decimalDigits]
    split_ifs with h10
    · simpa using (digit_ne_space ⟨n, h10⟩).symm
    · simp only [List.mem_append, not_or, List.mem_singleton]
      exact ⟨ih _, (digit_ne_space ⟨n % 10, Nat.mod_lt _ (by omega)⟩).symm⟩

end Sys2Proof
end

