-- ==== Sys2Proof/Laws/PerInstr.lean ====
section
/-! SUPPORT. Statements made of every row, one lemma per constructor. Family `TokensHoldNoSpace`: no token of a row's line holds
the byte that separates tokens, so that a line can be cut into its tokens again (30_encoding.md R71). -/

namespace Sys2Proof.Laws.TokensHoldNoSpace

/-- No token of the row's line holds a space. -/
def Statement (i : Instr) : Prop := ∀ t ∈ i.tokens, spaceByte ∉ t

theorem frame (p : Bytes) (c : Byte) : Statement (.frame p c) := by simp [Statement, Instr.tokens]

theorem pktFinal (d : Bytes) : Statement (.pktFinal d) := by simp [Statement, Instr.tokens]

theorem pktNonfinal (o : Byte) (d : Bytes) : Statement (.pktNonfinal o d) := by simp [Statement, Instr.tokens]

/-- A keyword followed by bytes. -/
theorem word_bytes {w : Bytes} (hw : spaceByte ∉ w) (bs : Bytes) : ∀ t ∈ w :: bs.map tokenOfByte, spaceByte ∉ t :=
  List.forall_mem_cons.2 ⟨hw, map_tokenOfByte_no_space bs⟩

theorem cks8 (bs : Bytes) : Statement (.cks8 bs) := word_bytes (by decide) bs

theorem cks8Gen (p : Bytes) : Statement (.cks8Gen p) := word_bytes (by decide) p

theorem cks8Chk (f : Bytes) : Statement (.cks8Chk f) := word_bytes (by decide) f

theorem hdrEnc (off : Nat) : Statement (.hdrEnc off) :=
  List.forall_mem_cons.2 ⟨by decide, List.forall_mem_singleton.2 (decimalDigits_no_space _ _)⟩

theorem hdrDec (h : Byte) : Statement (.hdrDec h) := word_bytes (w := wHdrDec) (by decide) [h]

theorem frag (p : Bytes) : Statement (.frag p) := word_bytes (by decide) p

theorem txStart (p : Bytes) : Statement (.txStart p) := word_bytes (by decide) p

theorem txAck : Statement .txAck := word_bytes (w := wTxAck) (by decide) []

theorem rxPacket (b : Bytes) : Statement (.rxPacket b) := word_bytes (by decide) b

theorem rxClear : Statement .rxClear := word_bytes (w := wRxClear) (by decide) []

theorem abort : Statement .abort := word_bytes (w := wAbort) (by decide) []

theorem reset : Statement .reset := word_bytes (w := wReset) (by decide) []

theorem pktOut (bytes : Bytes) : Statement (.pktOut bytes) :=
  List.forall_mem_cons.2 ⟨by decide, word_bytes (by decide) bytes⟩

theorem txDone : Statement .txDone := List.forall_mem_cons.2 ⟨by decide, word_bytes (w := wTxDone) (by decide) []⟩

theorem frameOut (out : Bytes) (ok : Bool) : Statement (.frameOut out ok) :=
  List.forall_mem_cons.2 ⟨by decide, List.forall_mem_cons.2 ⟨by decide, word_bytes (by cases ok <;> decide) out⟩⟩

theorem refused (r : Reason) : Statement (.refused r) := by
  cases r <;> (show ∀ t ∈ _, spaceByte ∉ t; decide)

end Sys2Proof.Laws.TokensHoldNoSpace
end

