-- ==== Sys2Proof/Tests/Slice0.lean ====
section
/-! SUPPORT. The model's own tests. Expected values come from spec/95_test_vectors.md (the section is named) or are worked by hand
from the rule named; then a witness for every statement that has hypotheses. -/

namespace Sys2Proof.Tests
open Sys2Proof Sys2Proof.Machine

/-! ### Helpers -/

/-- The next state of an outcome, if there is one. -/
def nextOf : Host.Outcome State Fault Refusal → Option State
  | .next s => some s
  | .fault _ => none
  | .refused _ => none

/-- The outputs after one row. -/
def outs (i : Instr) (s : State) : Option (List OutEvent) := (nextOf (exec i s)).map (fun t => t.outputs)

/-- The results after one row. -/
def results (i : Instr) (s : State) : Option (List FnResult) := (nextOf (exec i s)).map (fun t => t.results)

/-- `(tx_state, tx_flen, tx_off)` after one row, as 95_test_vectors.md 2.5 writes a state. -/
def txAfter (i : Instr) (s : State) : Option (TxState × Nat × Nat) :=
  (nextOf (exec i s)).map (fun t => (t.txState, t.txFlen, t.txOff))

/-- `rx_len` and `rx_buf` after one row. -/
def rxAfter (i : Instr) (s : State) : Option (Nat × Memory) := (nextOf (exec i s)).map (fun t => (t.rxLen, t.rxBuf))

/-- The bytes `a, a+1, ...`, `n` of them. -/
def count (a n : Nat) : Bytes := (List.range n).map (fun i => BitVec.ofNat 8 (a + i))

/-- Decoding a line, a packet, a frame at the default parameters. -/
def line (bs : Bytes) : Decoded := decode Params.default { channel := .line, bytes := bs }
def packet (bs : Bytes) : Decoded := decode Params.default { channel := .packet, bytes := bs }
def frameBytes (bs : Bytes) : Decoded := decode Params.default { channel := .frame, bytes := bs }

/-! ### WellFormed: one ill-formed term for each check -/

theorem test_wf_nonfinal_header_zero : (Instr.pktNonfinal 0x00 [0x01]).wf Params.default = false := by decide
theorem test_wf_pktOut_too_short : (Instr.pktOut [0x00]).wf Params.default = false := by decide
theorem test_wf_pktOut_too_long : (Instr.pktOut (count 0 21)).wf Params.default = false := by decide
theorem test_wf_frameOut_err_without_code : (Instr.frameOut [0x01, 0x02, 0x66] false).wf Params.default = false := by decide

/-! ### Decoding: a word of every row, written out byte by byte (30_encoding.md R60, R61, R65, R71; ASCII) -/

/-- R60: payload 01 02 03, checksum 06. -/
theorem test_decode_frame : frameBytes [0x01, 0x02, 0x03, 0x06] = .ok (.frame [0x01, 0x02, 0x03] 0x06) := by decide
/-- R65 row 2. -/
theorem test_decode_pktFinal : packet [0x00, 0x01, 0x02, 0x03, 0x06] = .ok (.pktFinal [0x01, 0x02, 0x03, 0x06]) := by decide
/-- R65 row 3. -/
theorem test_decode_pktNonfinal : packet [0x13, 0xAA] = .ok (.pktNonfinal 0x13 [0xAA]) := by decide
/-- R65 row 1. -/
theorem test_decode_empty_notification : packet [] = .ok (.rxPacket []) := by decide
/-- `CKS8 FF 01`. -/
theorem test_decode_cks8 : line [0x43, 0x4B, 0x53, 0x38, 0x20, 0x46, 0x46, 0x20, 0x30, 0x31] = .ok (.cks8 [0xFF, 0x01]) := by
  decide
/-- `CKS8_GEN`. -/
theorem test_decode_cks8Gen : line [0x43, 0x4B, 0x53, 0x38, 0x5F, 0x47, 0x45, 0x4E] = .ok (.cks8Gen []) := by decide
/-- `CKS8_CHK 05`. -/
theorem test_decode_cks8Chk :
    line [0x43, 0x4B, 0x53, 0x38, 0x5F, 0x43, 0x48, 0x4B, 0x20, 0x30, 0x35] = .ok (.cks8Chk [0x05]) := by decide
/-- `HDR_ENC 275`. -/
theorem test_decode_hdrEnc :
    line [0x48, 0x44, 0x52, 0x5F, 0x45, 0x4E, 0x43, 0x20, 0x32, 0x37, 0x35] = .ok (.hdrEnc 275) := by decide
/-- `HDR_DEC EC`. -/
theorem test_decode_hdrDec :
    line [0x48, 0x44, 0x52, 0x5F, 0x44, 0x45, 0x43, 0x20, 0x45, 0x43] = .ok (.hdrDec 0xEC) := by decide
/-- `FRAG 7f`, small hex digits. -/
theorem test_decode_frag : line [0x46, 0x52, 0x41, 0x47, 0x20, 0x37, 0x66] = .ok (.frag [0x7F]) := by decide
/-- `TX_START 01 A2`. -/
theorem test_decode_txStart :
    line [0x54, 0x58, 0x5F, 0x53, 0x54, 0x41, 0x52, 0x54, 0x20, 0x30, 0x31, 0x20, 0x41, 0x32] = .ok (.txStart [0x01, 0xA2]) := by
  decide
/-- `TX_ACK`. -/
theorem test_decode_txAck : line [0x54, 0x58, 0x5F, 0x41, 0x43, 0x4B] = .ok .txAck := by decide
/-- `RX_PACKET 13 AA`. -/
theorem test_decode_rxPacket :
    line [0x52, 0x58, 0x5F, 0x50, 0x41, 0x43, 0x4B, 0x45, 0x54, 0x20, 0x31, 0x33, 0x20, 0x41, 0x41]
      = .ok (.rxPacket [0x13, 0xAA]) := by decide
/-- `RX_CLEAR`. -/
theorem test_decode_rxClear : line [0x52, 0x58, 0x5F, 0x43, 0x4C, 0x45, 0x41, 0x52] = .ok .rxClear := by decide
/-- `ABORT`. -/
theorem test_decode_abort : line [0x41, 0x42, 0x4F, 0x52, 0x54] = .ok .abort := by decide
/-- `RESET`. -/
theorem test_decode_reset : line [0x52, 0x45, 0x53, 0x45, 0x54] = .ok .reset := by decide
/-- `> PKT_OUT 00 05`. -/
theorem test_decode_pktOut :
    line [0x3E, 0x20, 0x50, 0x4B, 0x54, 0x5F, 0x4F, 0x55, 0x54, 0x20, 0x30, 0x30, 0x20, 0x30, 0x35]
      = .ok (.pktOut [0x00, 0x05]) := by decide
/-- `> TX_DONE`. -/
theorem test_decode_txDone :
    line [0x3E, 0x20, 0x54, 0x58, 0x5F, 0x44, 0x4F, 0x4E, 0x45] = .ok .txDone := by decide
/-- `> FRAME_OUT ok 07`. -/
theorem test_decode_frameOut :
    line [0x3E, 0x20, 0x46, 0x52, 0x41, 0x4D, 0x45, 0x5F, 0x4F, 0x55, 0x54, 0x20, 0x6F, 0x6B, 0x20, 0x30, 0x37]
      = .ok (.frameOut [0x07] true) := by decide
/-- `> REFUSED TooLong`. -/
theorem test_decode_refused :
    line [0x3E, 0x20, 0x52, 0x45, 0x46, 0x55, 0x53, 0x45, 0x44, 0x20, 0x54, 0x6F, 0x6F, 0x4C, 0x6F, 0x6E, 0x67]
      = .ok (.refused .tooLong) := by decide
/-- Rejections by name: an empty frame; `TX_ACK 01`; `NOP`; `> PKT_OUT 00`. -/
theorem test_decode_rejects :
    frameBytes [] = .bad .emptyFrame ∧
    line [0x54, 0x58, 0x5F, 0x41, 0x43, 0x4B, 0x20, 0x30, 0x31] = .bad .badOperand ∧
    line [0x4E, 0x4F, 0x50] = .bad .unknownLine ∧
    line [0x3E, 0x20, 0x50, 0x4B, 0x54, 0x5F, 0x4F, 0x55, 0x54, 0x20, 0x30, 0x30] = .bad .illFormed := by decide
/-- The table's word of `PKT_FINAL` (match 0x00 on byte 0), read and then run as the first row after reset. -/
theorem test_table_word :
    decodeTableWord 8 0 = some (.pktFinal []) ∧
    (nextOf (step (State.reset.withFetchWord 8 0))).map (fun t => t.pending) = some [] := by decide

/-! ### The checksum (95_test_vectors.md 2.1) and the header codec (2.2) -/

theorem test_cks8 : results (.cks8 [0x12, 0x34, 0x56, 0x78]) State.reset = some [.byte 0x14] := by decide
theorem test_cks8_ramp : results (.cks8 (count 1 18)) State.reset = some [.byte 0xAB] := by decide
theorem test_cks8Gen : results (.cks8Gen [0xFF, 0x01]) State.reset = some [.bytes [0xFF, 0x01, 0x00]] := by decide
theorem test_cks8Gen_empty : results (.cks8Gen []) State.reset = some [.bytes [0x00]] := by decide
theorem test_cks8Chk_true : results (.cks8Chk [0x02, 0x01, 0x03, 0x06]) State.reset = some [.verdict true] := by decide
theorem test_cks8Chk_false : results (.cks8Chk [0x05]) State.reset = some [.verdict false] := by decide
theorem test_frame : results (.frame [0x01, 0x02, 0x03] 0x07) State.reset = some [.frame [0x01, 0x02, 0x03, 0x07] false] := by
  decide
theorem test_hdrEnc : results (.hdrEnc 275) State.reset = some [.byte 0x13] := by decide
theorem test_hdrDec : results (.hdrDec 0xFF) State.reset = some [.position 255 false] := by decide
theorem test_hdrDec_sentinel : results (.hdrDec 0x00) State.reset = some [.position 0 true] := by decide

/-! ### The fragmenter (95_test_vectors.md 2.3 to 2.5) -/

/-- 2.4, `L = 20`. -/
theorem test_frag : results (.frag (count 1 20)) State.reset =
    some [.packets [0x02 :: count 3 18 ++ [0xD2], [0x00, 0x01, 0x02]]] := by decide
/-- 2.3, `L = 37`: two full packets, headers 19 and 0; `L = 274`: the first header is 256 truncated. -/
theorem test_frag_headers :
    (frag 19 (count 1 37)).map (fun b => (b.head?, b.length)) = [(some 0x13, 20), (some 0x00, 20)] ∧
    hdrEnc (fragOff 19 275 0) = 0x00 ∧ hdrEnc (fragOff 19 275 1) = 0xED := by decide

/-- The state of 2.5 row 6: `(Sending, 21, 2)`. -/
def sending21 : State := State.reset.loadFrame (count 1 20)

/-- 2.5 row 5. -/
theorem test_txStart : outs (.txStart (count 1 20)) State.reset = some [.pktOut (0x02 :: count 3 18 ++ [0xD2])] ∧
    txAfter (.txStart (count 1 20)) State.reset = some (.sending, 21, 2) := by decide
/-- 2.5 rows 8 and 10. -/
theorem test_txStart_refused : outs (.txStart []) sending21 = some [.refused .busy] ∧
    outs (.txStart (count 0 20)) { State.reset with params := { ps := 19, rxCap := 300, txCap := 20 } }
      = some [.refused .tooLong] := by decide
/-- 2.5 row 6. -/
theorem test_txAck_next : outs .txAck sending21 = some [.pktOut [0x00, 0x01, 0x02]] ∧
    txAfter .txAck sending21 = some (.sending, 21, 0) := by decide
/-- 2.5 rows 9 and 3. -/
theorem test_txAck_done : outs .txAck { sending21 with txOff := 0 } = some [.txDone] ∧
    txAfter .txAck { sending21 with txOff := 0 } = some (.idle, 0, 0) ∧ outs .txAck State.reset = some [] := by decide

/-! ### The reassembler (95_test_vectors.md 2.6 to 2.8) -/

/-- 2.6 row 1; 2.7 rows 4 to 7. -/
theorem test_rxPacket_final :
    outs (.rxPacket [0x00, 0x01, 0x02, 0x03, 0x06]) State.reset = some [.frameOut [0x01, 0x02, 0x03] true] ∧
    outs (.rxPacket [0x00, 0x01, 0x02, 0x03, 0x07]) State.reset = some [.frameOut [0x01, 0x66, 0x02] false] ∧
    outs (.rxPacket [0x00, 0x0A, 0x0B, 0x16]) State.reset = some [.frameOut [0x66, 0x02] false] ∧
    outs (.rxPacket [0x00, 0x05, 0x06]) State.reset = some [.frameOut [0x02] false] ∧
    outs (.rxPacket [0x00, 0x07]) State.reset = some [.frameOut [] false] := by decide
/-- 2.8 rows 5 and 4: 45 bytes stored, 15 dropped. -/
theorem test_rxPacket_nonfinal : rxAfter (.rxPacket [0x13, 0xAA]) State.reset = some (20, [(19, 0xAA)]) ∧
    rxAfter (.rxPacket (0xFF :: List.replicate 60 0xAA)) State.reset
      = some (300, (List.range 45).map (fun i => (255 + i, 0xAA))) := by decide
/-- 2.8 row 2. -/
theorem test_pktFinal_empty : outs (.pktFinal []) State.reset = some [] ∧ rxAfter (.pktFinal []) State.reset = some (0, []) := by
  decide
/-- 2.8 row 9: the stale tail of an earlier frame merged with the next frame (R191). -/
theorem test_pktFinal_stale :
    outs (.pktFinal [0x01, 0x02, 0x03, 0x06]) (State.reset.takeFragment 2 (count 3 18 ++ [0xD2])) =
      some [.frameOut ([0x01, 0x02, 0x03, 0x06] ++ count 5 14 ++ [0x66, 0x02]) false] := by decide
/-- 2.8 row 3: header only, `rx_len = 38`, nothing stored. -/
theorem test_pktNonfinal_header_only : rxAfter (.pktNonfinal 0x26 []) State.reset = some (38, []) := by decide
/-- R127's corner: `RX_CAP = 260`, `pos = 255`, `k = 19` stores 5 bytes and drops 14. -/
theorem test_pktNonfinal_clamp :
    rxAfter (.pktNonfinal 0xFF (List.replicate 19 0x01)) { State.reset with params := { ps := 19, rxCap := 260, txCap := 300 } }
      = some (260, (List.range 5).map (fun i => (255 + i, 0x01))) := by decide

/-! ### Control and outputs (95_test_vectors.md 2.8; R166) -/

/-- 2.8 row 6. -/
theorem test_rxClear : rxAfter .rxClear (State.reset.takeFragment 19 [0xAA]) = some (0, []) := by decide
/-- 2.8 row 11: both sides cleared, nothing emitted. -/
theorem test_abort : txAfter .abort (sending21.takeFragment 19 [0xAA]) = some (.idle, 0, 0) ∧
    rxAfter .abort (sending21.takeFragment 19 [0xAA]) = some (0, []) ∧
    outs .abort (sending21.takeFragment 19 [0xAA]) = some [] := by decide
/-- 2.8 row 12. -/
theorem test_reset : txAfter .reset sending21 = some (.idle, 0, 0) ∧ outs .reset sending21 = some [] := by decide
/-- R166: an emission follows those before it. -/
theorem test_outputs : outs (.pktOut [0x00, 0x05]) { State.reset with outputs := [.txDone] } = some [.txDone, .pktOut [0x00, 0x05]] ∧
    outs .txDone State.reset = some [.txDone] ∧
    outs (.frameOut [0x01] true) State.reset = some [.frameOut [0x01] true] ∧
    outs (.refused .busy) State.reset = some [.refused .busy] := by decide
/-- A step on the line `TX_START 05` (payload 05, checksum 05). -/
theorem test_step_line :
    (nextOf (step { State.reset with pending := [encode (.txStart [0x05])] })).map (fun t => (t.outputs, t.pending)) =
      some ([.pktOut [0x00, 0x05, 0x05]], []) := by decide

/-! ### Witnesses: for every statement with hypotheses, values that meet them all. A small block: `PS = 2`, both capacities 8. -/

/-- The small block, idle. -/
def idle8 : State := { State.reset with params := { ps := 2, rxCap := 8, txCap := 8 } }

/-- The small block sending the payload 01 02 03 (`F = 4`, `r = 2`, `n = 2`), its first packet outstanding. -/
def send8 : State := idle8.loadFrame [0x01, 0x02, 0x03]

/-- The same with the head packet outstanding. -/
def head8 : State := send8.advance

/-- The small block with one byte received at position 3. -/
def recv8 : State := idle8.takeFragment 3 [0xAA]

theorem idle8_inv : Inv idle8 where
  params := by decide
  txMem := by decide
  rxMem := by decide
  idle := by decide
  flen := by decide
  off := fun h => absurd h (by decide)
  frame := by decide
  rxLen := by decide
  rxAbove := fun _ _ => rfl

theorem send8_inv : Inv send8 where
  params := by decide
  txMem := by decide
  rxMem := by decide
  idle := by decide
  flen := by decide
  off := fun _ => .inr ⟨0, by decide⟩
  frame := by decide
  rxLen := by decide
  rxAbove := fun _ _ => rfl

theorem head8_inv : Inv head8 where
  params := by decide
  txMem := by decide
  rxMem := by decide
  idle := by decide
  flen := by decide
  off := fun _ => .inl rfl
  frame := by decide
  rxLen := by decide
  rxAbove := fun _ _ => rfl

theorem recv8_inv : Inv recv8 where
  params := by decide
  txMem := by decide
  rxMem := by decide
  idle := by decide
  flen := by decide
  off := fun h => absurd h (by decide)
  frame := by decide
  rxLen := by decide
  rxAbove := fun a h => by
    show Memory.read [(3, 0xAA)] a = 0x00
    have h4 : 4 ≤ a := h
    rw [Memory.read, if_neg (by omega)]
    rfl

/-- A row that answers a next state. -/
theorem has_next {o : Host.Outcome State Fault Refusal} (h : (nextOf o).isSome = true) : ∃ t, o = .next t := by
  cases o with
  | next t => exact ⟨t, rfl⟩
  | fault r => cases h
  | refused r => cases h

theorem witness_StepRunsDecodedFeed_ok :
    ({ State.reset with pending := [encode .txAck] }).pending = encode .txAck :: [] ∧
    decode Params.default (encode .txAck) = .ok .txAck := by decide
theorem witness_StepRunsDecodedFeed_bad :
    decode Params.default { channel := .frame, bytes := [] } = .bad .emptyFrame ∧ State.reset.pending = [] := by decide
theorem witness_EncodedRowDecodesToItself : (Instr.pktOut (List.replicate 20 0xFF)).wf Params.default = true ∧
    (Instr.pktNonfinal 0xFF []).wf Params.default = true ∧ (Instr.frameOut [0x66, 0x02] false).wf Params.default = true := by
  decide
theorem witness_FrameAndPacketBytesHaveOneMeaning : Channel.frame ≠ .line ∧ ([0x00] : Bytes) ≠ [] ∧
    frameBytes [0x00] = .ok (.frame [] 0x00) ∧ packet [0x00] = .ok (.pktFinal []) ∧ packet [0xFF] = .ok (.pktNonfinal 0xFF []) := by
  decide
theorem witness_NotificationActsAsItsPacketRow : (0x00 : Byte) = 0x00 ∧ (0x01 : Byte) ≠ 0x00 ∧ (0xFF : Byte) ≠ 0x00 := by decide
theorem witness_StepKeepsInv : Inv send8 ∧ ∃ t, step send8 = .next t := ⟨send8_inv, has_next (by decide)⟩
theorem witness_BlockNeverFaults : Inv idle8 ∧ Inv send8 ∧ Inv head8 ∧ Inv recv8 :=
  ⟨idle8_inv, send8_inv, head8_inv, recv8_inv⟩
theorem witness_OneChangedByteIsDetected : (1 < ([0x05, 0x05] : Bytes).length) ∧ cks8Chk [0x05, 0x05] = true ∧
    ([0x05, 0x05] : Bytes)[1]'(by decide) ≠ 0x06 ∧ ([0x05, 0x05] : Bytes)[0]'(by decide) ≠ 0x00 := by decide
theorem witness_ReorderedPayloadIsNotDetected : ([0x01, 0x02] : Bytes).Perm [0x02, 0x01] := by decide
theorem witness_FragGivesPacketsTailFirst : idle8.params.valid ∧ ([0x01] : Bytes) ≠ [] ∧
    (frag 2 [0x01]).length = 1 ∧ (frag 2 [0x01, 0x02]).length = 2 := by decide
theorem witness_FragmentsCoverFrame : 1 ≤ 1 ∧ ([0x01] : Bytes) ≠ [] := by decide
theorem witness_HeadersStepDownByPacketSize : 1 < (frag 1 [0x01]).length ∧ 1 ≤ 1 ∧ 0 + 1 < (frag 1 [0x01]).length := by decide
theorem witness_TxStartRefusals : send8.txState = .sending ∧ idle8.txState = .idle ∧ ([] : Bytes) = [] ∧
    (List.replicate 8 (0x00 : Byte)) ≠ [] ∧ idle8.params.txCap < (List.replicate 8 (0x00 : Byte)).length + 1 := by decide
theorem witness_TxStartLoadsFrame : Inv idle8 ∧ idle8.txState = .idle ∧ 1 ≤ (List.replicate 7 (0xFF : Byte)).length ∧
    (List.replicate 7 (0xFF : Byte)).length + 1 ≤ idle8.params.txCap := ⟨idle8_inv, by decide⟩
theorem witness_TxAckSendsNextOrFinishes : idle8.txState = .idle ∧ head8.txState = .sending ∧ head8.txOff = 0 ∧
    Inv send8 ∧ send8.txState = .sending ∧ send8.txOff ≠ 0 :=
  ⟨by decide, by decide, by decide, send8_inv, by decide, by decide⟩
theorem witness_TransmitRunEmitsFragThenDone : Inv idle8 ∧ idle8.txState = .idle ∧ 1 ≤ ([0x01] : Bytes).length ∧
    ([0x01] : Bytes).length + 1 ≤ idle8.params.txCap := ⟨idle8_inv, by decide⟩
theorem witness_SafeSendingUsesExactHeaders : Inv idle8 ∧ Inv send8 ∧ Inv head8 ∧
    isTxEvent (.txStart [0x01]) = true ∧ safeEvent idle8 (.txStart [0x01]) = true ∧ idle8.txFlen ≤ 255 ∧
    isTxEvent .txAck = true ∧ safeEvent send8 .txAck = true ∧ send8.txFlen ≤ 255 ∧ safeEvent head8 .txAck = true :=
  ⟨idle8_inv, send8_inv, head8_inv, by decide⟩
theorem witness_FrameIsFixedWhileSending : send8.txState = .sending ∧ ∃ t, exec (.txStart [0x01]) send8 = .next t :=
  ⟨by decide, has_next (by decide)⟩
theorem witness_OnlyHeadAckEmitsTxDone : Instr.txAck.issuer.isSome = true ∧ ∃ t, exec .txAck head8 = .next t :=
  ⟨by decide, has_next (by decide)⟩
theorem witness_EmittedPacketIsTheOneAtTxOff : Inv send8 ∧ Instr.txAck.issuer.isSome = true ∧
    exec .txAck send8 = .next (send8.advance.emit (.pktOut [0x00, 0x01, 0x02])) ∧
    (send8.advance.emit (.pktOut [0x00, 0x01, 0x02])).outputs = send8.outputs ++ [.pktOut [0x00, 0x01, 0x02]] :=
  ⟨send8_inv, by decide, rfl, rfl⟩
theorem witness_StaleTxBufferIsNeverObserved : Inv send8 ∧ (send8.txBuf.write 7 0x55).wf send8.params.txCap = true ∧
    ∀ a, a < send8.txFlen → (send8.txBuf.write 7 0x55).read a = send8.txBuf.read a := ⟨send8_inv, by decide, by decide⟩

/-- A block with `PS = 19` and room for 280 bytes, idle. -/
def idle280 : State := { State.reset with params := { ps := 19, rxCap := 280, txCap := 280 } }

theorem idle280_inv : Inv idle280 where
  params := by decide
  txMem := by decide
  rxMem := by decide
  idle := by decide
  flen := by decide
  off := fun h => absurd h (by decide)
  frame := by decide
  rxLen := by decide
  rxAbove := fun _ _ => rfl

set_option maxRecDepth 20000 in
/-- The boundary: a frame of 275 bytes at `PS = 19`. -/
theorem witness_OversizeFrameNeverReassembles : Inv idle280 ∧ idle280.rxLen = 0 ∧
    256 + idle280.params.ps ≤ (List.replicate 274 (0x00 : Byte)).length + 1 ∧
    ∃ t, execAll (notifications (frag idle280.params.ps (List.replicate 274 0x00))) idle280 = .next t :=
  ⟨idle280_inv, rfl, by rw [List.length_replicate]; decide, has_next (by decide)⟩
/-- The last address below `RX_CAP` and the first dropped one are both met: position 7, two bytes. -/
theorem witness_NonfinalFragmentIsPlaced : Inv recv8 ∧ (0x07 : Byte) ≠ 0x00 ∧
    (exec (.pktNonfinal 0x07 [0x11, 0x22]) recv8 = .next (recv8.takeFragment 7 [0x11, 0x22])) ∧
    (recv8.takeFragment 7 [0x11, 0x22]).rxBuf = [(3, 0xAA), (7, 0x11)] := ⟨recv8_inv, by decide, rfl, by decide⟩
theorem witness_NonfinalFragmentRaisesLength : (0xFF : Byte) ≠ 0x00 := by decide
/-- `T = 0`, and `T = 1` with either verdict. -/
theorem witness_FinalPacketCompletesFrame : Inv idle8 ∧ lenAfter idle8 0 0 = 0 ∧ 1 ≤ lenAfter idle8 0 1 ∧
    outs (.pktFinal [0x00]) idle8 = some [.frameOut [] true] ∧ outs (.pktFinal [0x01]) idle8 = some [.frameOut [] false] :=
  ⟨idle8_inv, by decide⟩
/-- Delivered lengths 0, 1, 2 and 3. -/
theorem witness_MismatchMarksLastTwoBytes : Inv idle8 ∧
    outs (.pktFinal [0x07]) idle8 = some [.frameOut [] false] ∧
    outs (.pktFinal [0x05, 0x06]) idle8 = some [.frameOut [0x02] false] ∧
    outs (.pktFinal [0x0A, 0x0B, 0x16]) idle8 = some [.frameOut [0x66, 0x02] false] ∧
    outs (.pktFinal [0x01, 0x02, 0x03, 0x07]) idle8 = some [.frameOut [0x01, 0x66, 0x02] false] := ⟨idle8_inv, by decide⟩
/-- The boundary `F = 255 + PS = 274`, and the smallest payload. -/
theorem witness_FragThenReassembleGivesPayload : Inv idle280 ∧ idle280.rxLen = 0 ∧
    1 ≤ (List.replicate 273 (0x00 : Byte)).length ∧
    (List.replicate 273 (0x00 : Byte)).length + 1 ≤ 255 + idle280.params.ps ∧
    (List.replicate 273 (0x00 : Byte)).length + 1 ≤ idle280.params.rxCap ∧ 1 ≤ ([0x01] : Bytes).length := by
  refine ⟨idle280_inv, rfl, ?_⟩
  rw [List.length_replicate]
  decide
theorem witness_OneCorruptedByteIsReported : Inv idle8 ∧ idle8.rxLen = 0 ∧ 1 ≤ ([0x01, 0x02, 0x03] : Bytes).length ∧
    ([0x01, 0x02, 0x03] : Bytes).length + 1 ≤ 255 + idle8.params.ps ∧
    ([0x01, 0x02, 0x03] : Bytes).length + 1 ≤ idle8.params.rxCap ∧
    (frag idle8.params.ps [0x01, 0x02, 0x03])[0]? = some [0x02, 0x03, 0x06] ∧
    ([0x02, 0x03, 0x06] : Bytes)[0 + 1]? = some 0x03 ∧ (0x03 : Byte) ≠ 0x04 := ⟨idle8_inv, by decide⟩
theorem witness_DuplicateNonfinalHasNoEffect : Inv recv8 ∧ (0x03 : Byte) ≠ 0x00 ∧
    ∃ t, exec (.rxPacket [0x03, 0xBB]) recv8 = .next t := ⟨recv8_inv, by decide, has_next (by decide)⟩
theorem witness_NonfinalPacketsCommute : Inv idle8 ∧ (0x01 : Byte) ≠ 0x00 ∧ (0x03 : Byte) ≠ 0x00 ∧
    (0x01 : Byte).toNat + ([0x11, 0x22] : Bytes).length ≤ (0x03 : Byte).toNat := ⟨idle8_inv, by decide⟩
theorem witness_OneEventEmitsAtMostOneOutput : ∃ t, exec .txAck head8 = .next t := has_next (by decide)
theorem witness_OnlyTxStartIsRefused : (Instr.txStart []).issuer.isSome = true ∧
    exec (.txStart []) send8 = .next (send8.refuse .busy) ∧
    (send8.refuse .busy).outputs = send8.outputs ++ [.refused .busy] ∧
    outs (.txStart (List.replicate 8 0x00)) idle8 = some [.refused .tooLong] := ⟨by decide, rfl, rfl, by decide⟩
theorem witness_NoEventReachesTheOtherSide : isTxEvent .txAck = true ∧ isRxEvent (.pktFinal [0x01]) = true ∧
    (∃ t, exec .txAck send8 = .next t) ∧ ∃ t, exec (.pktFinal [0x01]) send8 = .next t :=
  ⟨rfl, rfl, has_next (by decide), has_next (by decide)⟩
theorem witness_TxAndRxEventsCommute : Inv send8 ∧ isTxEvent .txAck = true ∧ isRxEvent (.rxPacket [0x00, 0x00]) = true :=
  ⟨send8_inv, rfl, rfl⟩
theorem witness_PureAndOutputRowsTouchNoState : isPure (.hdrDec 0x00) = true ∧ isOutput (.pktOut [0x00, 0x05]) = true := by decide
theorem witness_ParametersNeverChange : Instr.reset.issuer.isSome = true ∧ ∃ t, exec .reset send8 = .next t :=
  ⟨rfl, has_next (by decide)⟩

/-- Values for `ChecksumFunctionsGiveTheirValues`: the shortest frame, valid and not. -/
theorem witness_ChecksumFunctionsGiveTheirValues : ([0x00] : Bytes) ≠ [] ∧ cks8Chk [0x00] = true ∧ cks8Chk [0x01] = false := by decide
/-- `RX_CAP = 8`, position 7: one byte stored, one dropped; position 9: none stored; and the default block's last address, 273. -/
theorem witness_OutOfRangeReceiveBytesHaveNoEffect : Inv recv8 ∧
    exec (.rxPacket [0x07, 0x11, 0x22]) recv8 = exec (.rxPacket [0x07, 0x11]) recv8 ∧
    rxAfter (.rxPacket [0x07, 0x11, 0x22]) recv8 = some (8, [(3, 0xAA), (7, 0x11)]) ∧
    rxAfter (.rxPacket [0x09, 0x11]) recv8 = some (8, [(3, 0xAA)]) ∧
    State.reset.params = Params.default ∧ (count 0 19).length + 1 ≤ State.reset.params.pktMax ∧ 18 < (count 0 19).length :=
  ⟨recv8_inv, rfl, by decide⟩

end Sys2Proof.Tests
end

/-! PROOFS. The family 20_memory.md: what one step does, one equation per branch of `step` (R46, R47). -/

namespace Sys2Proof.Machine

/-- 20_memory.md R46: with no feed the block takes no step of its own. -/
theorem step_of_pending_nil {s : State} (hp : s.pending = []) : step s = .next s := by
  simp only [step, hp]

/-- 20_memory.md R47: the feed that decodes is taken off the list and its row is run on what is left. -/
theorem step_of_decode_ok {s : State} {f : Feed} {fs : List Feed} {i : Instr} (hp : s.pending = f :: fs)
    (hd : decode s.params f = .ok i) : step s = exec i (s.withPending fs) := by
  simp only [step, hp, hd]

/-- A feed that no encoding decodes stops the machine by name (log 16). -/
theorem step_of_decode_bad {s : State} {f : Feed} {fs : List Feed} {e : DecodeError} (hp : s.pending = f :: fs)
    (hd : decode s.params f = .bad e) : step s = .refused (.undecodable e) := by
  simp only [step, hp, hd]

/-- Settles O1: the three branches of `step`, chosen by the input list and by what its first feed decodes to. -/
theorem stepRunsDecodedFeed : Obligations.StepRunsDecodedFeed := by
  intro s
  refine ⟨step_of_pending_nil, fun f fs hp => ⟨fun i hd => ?_, fun e hd => ?_⟩⟩
  · exact step_of_decode_ok hp hd
  · exact step_of_decode_bad hp hd

end Sys2Proof.Machine

/-! PROOFS. The family 30_encoding.md: what a received packet decodes to, one equation per row of the table of R65. -/

namespace Sys2Proof.Machine

/-- 30_encoding.md R65, row 1: no byte at all is the empty notification. -/
theorem decode_packet_nil (p : Params) :
    decode p { channel := .packet, bytes := [] } = .ok (.rxPacket []) := rfl

/-- 30_encoding.md R65, row 2: the first byte `0x00` makes a final packet, whatever follows it. -/
theorem decode_packet_final (p : Params) (d : Bytes) :
    decode p { channel := .packet, bytes := 0x00 :: d } = .ok (.pktFinal d) := rfl

/-- 30_encoding.md R65, row 3: any other first byte makes a non-final packet. The row passes the decoder's check of
well-formedness because that check asks of the header just what chose this row. -/
theorem decode_packet_nonfinal (p : Params) {h : Byte} (d : Bytes) (hne : h ≠ 0x00) :
    decode p { channel := .packet, bytes := h :: d } = .ok (.pktNonfinal h d) := by
  have hrow : decodePacket (h :: d) = .pktNonfinal h d := if_neg hne
  have hwf : (Instr.pktNonfinal h d).wf p = true := bne_iff_ne.mpr hne
  simp only [decode, hrow, acceptRow, hwf, if_true]

/-- Settles O5: the three rows of R65 by the shape of the bytes, none, a first byte `0x00`, any other first byte. -/
theorem packetDecoderIsTotal : Obligations.PacketDecoderIsTotal := by
  intro p b
  cases b with
  | nil => exact ⟨_, decode_packet_nil p, .inl ⟨rfl, rfl⟩⟩
  | cons h d =>
    by_cases h0 : h = 0x00
    · subst h0
      exact ⟨_, decode_packet_final p d, .inr (.inl ⟨d, rfl, rfl⟩)⟩
    · exact ⟨_, decode_packet_nonfinal p d h0, .inr (.inr ⟨h, d, h0, rfl, rfl⟩)⟩

end Sys2Proof.Machine

/-! PROOFS. The family 40_checksum8.md: the validator's verdict as an equation of sums over the integers (R87). -/

namespace Sys2Proof.Machine

/-- 40_checksum8.md R87: a payload followed by a byte is valid when the payload's sum, modulo 256, is that byte. -/
theorem cks8Chk_append_iff (p : Bytes) (c : Byte) :
    cks8Chk (p ++ [c]) = true ↔ (p.map BitVec.toNat).sum % 256 = c.toNat := by
  rw [cks8Chk_append, beq_iff_eq, ← BitVec.toNat_inj, cks8_toNat]

/-- Settles O55: the sum and the generator by their own equations, the validator by cutting the frame before its last byte. -/
theorem checksumFunctionsGiveTheirValues : Obligations.ChecksumFunctionsGiveTheirValues := by
  refine ⟨cks8_toNat, fun p => rfl, fun f hf => ?_⟩
  have hcut : cks8Chk f = cks8Chk (f.dropLast ++ [f.getLast hf]) := by rw [List.dropLast_append_getLast hf]
  rw [hcut, cks8Chk_append_iff]

end Sys2Proof.Machine

/-! PROOFS. The family 60_exceptions.md: the block never faults (R160). Each shared operation keeps the invariant, said once; the two
operations that read a buffer, sending a packet and completing a frame, read only addresses that exist; then row by row. -/

namespace Sys2Proof.Machine

/-! ### The offsets of 10_state.md R24 -/

/-- The offsets R24 admits while a frame of `f` bytes is sent: the clause `off` of `Inv`. -/
def OffsetInFrame (ps f off : Nat) : Prop :=
  off = 0 ∨ ∃ j, off = headLen ps f + ps * j ∧ off + ps ≤ f

theorem Inv.offsetInFrame {s : State} (h : Inv s) (hs : s.txState = .sending) :
    OffsetInFrame s.params.ps s.txFlen s.txOff := h.off hs

/-- `TX_START` writes an admitted offset (42_fragmenter.md R110). -/
theorem offsetInFrame_firstOff {ps f : Nat} (hps : 1 ≤ ps) (hf : 1 ≤ f) : OffsetInFrame ps f (firstOff ps f) := by
  have hend := fragOff_add_fragLen hf (packetCount_pos ps f)
  rw [firstOff_eq hps hf]
  by_cases hmore : 0 + 1 < packetCount ps f
  · rw [fragLen, if_pos hmore] at hend
    exact .inr ⟨packetCount ps f - 2 - 0, by rw [fragOff, if_pos hmore], by omega⟩
  · exact .inl (by rw [fragOff, if_neg hmore])

/-- `TX_ACK` moves on to an admitted offset (42_fragmenter.md R111): one fragment down, or to the head. -/
theorem offsetInFrame_nextOff {ps f off : Nat} (hps : 1 ≤ ps) (h : OffsetInFrame ps f off) :
    OffsetInFrame ps f (nextOff ps off) := by
  have hhead := headLen_le (f := f) hps
  rw [nextOff]
  obtain hzero | ⟨j, hj, hend⟩ := h
  · exact .inl (by omega)
  · cases j with
    | zero => exact .inl (by omega)
    | succ j => exact .inr ⟨j, by rw [Nat.mul_succ] at hj; omega, by omega⟩

/-- The fragment at an admitted offset ends within the frame. -/
theorem OffsetInFrame.end_le {ps f off : Nat} (hf : 1 ≤ f) (h : OffsetInFrame ps f off) : off + fragLenAt ps f off ≤ f := by
  rw [fragLenAt]
  split_ifs with hzero
  · have := headLen_le_frame (ps := ps) hf
    omega
  · obtain h0 | ⟨_, _, hend⟩ := h
    · exact absurd h0 hzero
    · exact hend

/-! ### The shared operations keep the invariant -/

theorem Inv.emit {s : State} (h : Inv s) (e : OutEvent) : Inv (s.emit e) := { h with }

theorem Inv.answer {s : State} (h : Inv s) (r : FnResult) : Inv (s.answer r) := { h with }

theorem Inv.clearRx {s : State} (h : Inv s) : Inv s.clearRx :=
  { h with rxMem := Memory.wf_nil _, rxLen := Nat.zero_le _, rxAbove := fun _ _ => rfl }

theorem Inv.clearTx {s : State} (h : Inv s) : Inv s.clearTx :=
  { h with idle := fun _ => ⟨rfl, rfl⟩, flen := nofun, off := nofun, frame := nofun }

theorem Inv.clearAll {s : State} (h : Inv s) : Inv s.clearAll := h.clearTx.clearRx

/-- The frame may be finished at offset 0 only: `finishTx` leaves `tx_off` as it is, and R24 asks 0 while idle. -/
theorem Inv.finishTx {s : State} (h : Inv s) (hoff : s.txOff = 0) : Inv s.finishTx :=
  { h with idle := fun _ => ⟨rfl, hoff⟩, flen := nofun, off := nofun, frame := nofun }

theorem Inv.advance {s : State} (h : Inv s) (hs : s.txState = .sending) : Inv s.advance :=
  { h with
    idle := fun hi => absurd (hs.symm.trans hi) (by decide)
    off := fun _ => offsetInFrame_nextOff h.params.1 (h.offsetInFrame hs) }

/-- A payload that `TX_START` accepts (42_fragmenter.md R113) loads as a frame of R22 to R24. -/
theorem Inv.loadFrame {s : State} (h : Inv s) {p : Bytes} (hp : p ≠ []) (hcap : p.length + 1 ≤ s.params.txCap) :
    Inv (s.loadFrame p) := by
  obtain ⟨hwf, _, hread⟩ := State.loadFrame_read h.txMem hcap
  rw [cks8Gen_length] at hread
  have hlen := List.length_pos_iff.2 hp
  exact { h with
    txMem := hwf
    idle := nofun
    flen := fun _ => ⟨Nat.succ_le_succ hlen, hcap⟩
    off := fun _ => offsetInFrame_firstOff h.params.1 (Nat.le_add_left 1 _)
    frame := fun _ => by rw [State.loadFrame_txFlen, hread, cks8Gen, cks8Chk_append, beq_self_eq_true] }

/-- A fragment taken in at any position, whatever part of it lies above `RX_CAP` (43_reassembler.md R127, R128). -/
theorem Inv.takeFragment {s : State} (h : Inv s) (pos : Nat) (d : Bytes) : Inv (s.takeFragment pos d) := by
  obtain ⟨hwf, hread⟩ := Memory.place_spec h.rxMem pos d
  refine { h with rxMem := hwf, rxLen := max_le h.rxLen (min_le_right _ _), rxAbove := fun a ha => ?_ }
  rw [State.takeFragment_rxLen] at ha
  rw [State.takeFragment_rxBuf, hread, if_neg (by omega)]
  exact h.rxAbove a (by omega)

/-! ### The outcomes -/

/-- The outcome is a next state, and the block accepts further events in it (60_exceptions.md R160). -/
abbrev NextInInv (o : Host.Outcome State Fault Refusal) : Prop := ∃ t, o = .next t ∧ Inv t

theorem Inv.next {t : State} (h : Inv t) : NextInInv (.next t) := ⟨t, rfl, h⟩

/-- While sending, the packet at `tx_off` lies in the frame and so below `TX_CAP`: no read faults (20_memory.md R45). -/
theorem Inv.sendPkt {s : State} (h : Inv s) (hs : s.txState = .sending) : NextInInv s.sendPkt := by
  obtain ⟨hmin, hmax⟩ := h.flen hs
  have hend := (h.offsetInFrame hs).end_le (by omega)
  rw [State.sendPkt_eq (hend.trans hmax)]
  exact (h.emit _).next

/-- Completion reads `rx_len` bytes, never more than `RX_CAP`: no read faults (20_memory.md R44). -/
theorem Inv.complete {s : State} (h : Inv s) : NextInInv s.complete := by
  by_cases hzero : s.rxLen = 0
  · rw [State.complete_zero hzero]
    exact h.clearRx.next
  · rw [State.complete_pos hzero h.rxLen]
    exact (h.emit _).clearRx.next

/-! ### The rows with several outcomes -/

theorem Inv.nextInInv_execTxStart {s : State} (h : Inv s) (p : Bytes) : NextInInv (execTxStart p s) := by
  rw [execTxStart]
  split_ifs with _ hempty hlong
  · exact (h.emit _).next
  · exact h.next
  · exact (h.emit _).next
  · exact (h.loadFrame (mt List.length_eq_zero_iff.2 hempty) (Nat.le_of_not_lt hlong)).sendPkt rfl

theorem TxState.sending_of_ne_idle {x : TxState} (h : x ≠ .idle) : x = .sending := by
  cases x with
  | idle => exact absurd rfl h
  | sending => rfl

theorem Inv.nextInInv_execTxAck {s : State} (h : Inv s) : NextInInv (execTxAck s) := by
  rw [execTxAck]
  split_ifs with hidle hhead
  · exact h.next
  · exact ((h.finishTx hhead).emit _).next
  · have hs := TxState.sending_of_ne_idle hidle
    exact (h.advance hs).sendPkt hs

theorem Inv.nextInInv_execRxPacket {s : State} (h : Inv s) (b : Bytes) : NextInInv (execRxPacket b s) := by
  cases b with
  | nil => exact h.next
  | cons o d =>
    by_cases hfinal : o = 0x00
    · rw [hfinal, execRxPacket_final]
      exact (h.takeFragment 0 d).complete
    · rw [execRxPacket_nonfinal d s hfinal]
      exact (h.takeFragment o.toNat d).next

/-- Settles O10, row by row: the rows that only compute, the output events, control, reception, sending. -/
theorem blockNeverFaults : Obligations.BlockNeverFaults := by
  intro i s h
  cases i with
  | frame | cks8 | cks8Gen | cks8Chk | hdrEnc | hdrDec | frag => exact (h.answer _).next
  | pktOut | txDone | frameOut | refused => exact (h.emit _).next
  | rxClear => exact h.clearRx.next
  | abort | reset => exact h.clearAll.next
  | pktNonfinal o d => exact (h.takeFragment o.toNat d).next
  | pktFinal d => exact (h.takeFragment 0 d).complete
  | rxPacket b => exact h.nextInInv_execRxPacket b
  | txStart p => exact h.nextInInv_execTxStart p
  | txAck => exact h.nextInInv_execTxAck

end Sys2Proof.Machine

/-! PROOFS. The family other: the encoder and the decoder agree (30_encoding.md R60, R61, R65, R71). -/

namespace Sys2Proof

/-! ### Lines: the tokens of a row are read back as that row -/

theorem withBytes_map (bs : Bytes) (k : Bytes → Instr) : withBytes (bs.map tokenOfByte) k = .ok (k bs) := by
  rw [withBytes, bytesOfTokens_map]

theorem decodeHdrEnc_token (n : Nat) : decodeHdrEnc [tokenOfOffset n] = .ok (.hdrEnc n) := by
  rw [decodeHdrEnc, offsetOfToken_tokenOfOffset]

theorem decodeHdrDec_token (h : Byte) : decodeHdrDec [tokenOfByte h] = .ok (.hdrDec h) := by
  rw [decodeHdrDec, show [tokenOfByte h] = [h].map tokenOfByte from rfl, bytesOfTokens_map]

/-- The tokens of a row that is written as a line are read back as that row: its keyword chooses the branch of `decodeTokens`,
its operand is read back by the lemma of that operand's form. -/
theorem decodeTokens_tokens (i : Instr) (h : i.tokens ≠ []) : decodeTokens i.tokens = .ok i := by
  cases i with
  | frame | pktFinal | pktNonfinal => exact absurd rfl h
  | cks8 bs | cks8Gen bs | cks8Chk bs | frag bs | txStart bs | rxPacket bs => exact withBytes_map bs _
  | hdrEnc off => exact decodeHdrEnc_token off
  | hdrDec b => exact decodeHdrDec_token b
  | txAck | rxClear | abort | reset | txDone => rfl
  | pktOut bs => exact withBytes_map bs .pktOut
  | frameOut out ok => cases ok <;> exact withBytes_map out _
  | refused r => cases r <;> rfl

/-- No token of any row holds the byte that separates tokens. -/
theorem Laws.TokensHoldNoSpace.every_row (i : Instr) : Laws.TokensHoldNoSpace.Statement i := by
  cases i with
  | frame p c => exact frame p c
  | pktFinal d => exact pktFinal d
  | pktNonfinal o d => exact pktNonfinal o d
  | cks8 bs => exact cks8 bs
  | cks8Gen p => exact cks8Gen p
  | cks8Chk f => exact cks8Chk f
  | hdrEnc off => exact hdrEnc off
  | hdrDec h => exact hdrDec h
  | frag p => exact frag p
  | txStart p => exact txStart p
  | txAck => exact txAck
  | rxPacket b => exact rxPacket b
  | rxClear => exact rxClear
  | abort => exact abort
  | reset => exact reset
  | pktOut bytes => exact pktOut bytes
  | txDone => exact txDone
  | frameOut out ok => exact frameOut out ok
  | refused r => exact refused r

theorem acceptRow_of_wf {p : Params} {i : Instr} (hwf : i.wf p = true) : acceptRow p (.ok i) = .ok i := by
  rw [acceptRow, if_pos hwf]

/-- A well-formed row that is written as a line is decoded from that line. -/
theorem decode_lineOf {p : Params} {i : Instr} (hne : i.tokens ≠ []) (hwf : i.wf p = true) : decode p (lineOf i) = .ok i := by
  have hcut : splitTokens (lineOf i).bytes = i.tokens := splitTokens_joinTokens hne (Laws.TokensHoldNoSpace.every_row i)
  show acceptRow p (decodeTokens (splitTokens (lineOf i).bytes)) = .ok i
  rw [hcut, decodeTokens_tokens i hne, acceptRow_of_wf hwf]

theorem decodeFrame_append (p : Bytes) (c : Byte) : decodeFrame (p ++ [c]) = .ok (.frame p c) := by
  simp [decodeFrame]

theorem decodePacket_nonfinal {o : Byte} (d : Bytes) (h : o ≠ 0) : decodePacket (o :: d) = .pktNonfinal o d := if_neg h

/-- Settles O3, row by row: a frame by its last byte, a packet by its first, every other row by its line. -/
theorem encodedRowDecodesToItself : Obligations.EncodedRowDecodesToItself := by
  intro p i hwf
  cases i with
  | frame q c =>
    show acceptRow p (decodeFrame (q ++ [c])) = _
    rw [decodeFrame_append, acceptRow_of_wf hwf]
  | pktFinal d => exact Machine.decode_packet_final p d
  | pktNonfinal o d => exact Machine.decode_packet_nonfinal p d (bne_iff_ne.1 hwf)
  | refused r => exact decode_lineOf (by cases r <;> exact List.cons_ne_nil _ _) hwf
  | _ => exact decode_lineOf (List.cons_ne_nil _ _) hwf

/-! ### Bytes: what they decode to is encoded as these bytes -/

theorem eq_of_acceptRow {p : Params} {x : Decoded} {i : Instr} (h : acceptRow p x = .ok i) : x = .ok i := by
  cases x with
  | bad e => cases h
  | ok j =>
    rw [acceptRow] at h
    split_ifs at h
    exact h

theorem encode_of_decodeFrame {bs : Bytes} {i : Instr} (h : decodeFrame bs = .ok i) :
    encode i = { channel := .frame, bytes := bs } := by
  rcases List.eq_nil_or_concat bs with rfl | ⟨q, c, rfl⟩
  · cases h
  · rw [List.concat_eq_append, decodeFrame_append] at h
    obtain rfl : Instr.frame q c = i := Decoded.ok.inj h
    rw [List.concat_eq_append]; rfl

theorem encode_decodePacket {h : Byte} (d : Bytes) : encode (decodePacket (h :: d)) = { channel := .packet, bytes := h :: d } := by
  by_cases h0 : h = 0
  · subst h0; rfl
  · rw [decodePacket_nonfinal d h0]; rfl

/-- Settles O4: a frame's bytes are cut before the last one, a packet's after the first; both cuts are undone by the encoder. -/
theorem frameAndPacketBytesHaveOneMeaning : Obligations.FrameAndPacketBytesHaveOneMeaning := by
  rintro p ⟨ch, bs⟩ i hline hne hd
  cases ch with
  | line => exact absurd rfl hline
  | frame => exact encode_of_decodeFrame (eq_of_acceptRow hd)
  | packet =>
    cases bs with
    | nil => exact absurd rfl hne
    | cons h d =>
      rw [← Decoded.ok.inj (eq_of_acceptRow (x := .ok (decodePacket (h :: d))) hd)]
      exact encode_decodePacket d

/-- Settles O2: seven written words, decoded one by one. -/
theorem writtenWordsDecode : Obligations.WrittenWordsDecode := by
  refine ⟨?_, ?_, ?_, ?_, ?_, ?_, ?_⟩ <;> decide

end Sys2Proof

namespace Sys2Proof.Machine

/-- Settles O6: a notification is received by its header, 0x00 as the final packet's row, any other as the non-final's. -/
theorem notificationActsAsItsPacketRow : Obligations.NotificationActsAsItsPacketRow := by
  intro s h d
  refine ⟨fun h0 => ?_, fun hne => ?_⟩
  · subst h0; exact execRxPacket_final d s
  · exact execRxPacket_nonfinal d s hne

end Sys2Proof.Machine

/-! PROOFS. The family other: reset, the invariant along a step, the flags (10_state.md R22 to R28, R32). -/

namespace Sys2Proof.Machine

theorem Inv.withPending {s : State} (h : Inv s) (fs : List Feed) : Inv (s.withPending fs) := { h with }

/-- Settles O9: a step either does nothing or runs one row, and every row keeps the invariant (`blockNeverFaults`). -/
theorem stepKeepsInv : Obligations.StepKeepsInv := by
  intro s t hinv hstep
  cases hp : s.pending with
  | nil =>
    rw [step_of_pending_nil hp] at hstep
    rwa [next_inj hstep]
  | cons f fs =>
    cases hd : decode s.params f with
    | bad e =>
      rw [step_of_decode_bad hp hd] at hstep
      cases hstep
    | ok i =>
      rw [step_of_decode_ok hp hd] at hstep
      obtain ⟨u, hu, hkeep⟩ := blockNeverFaults i _ (hinv.withPending fs)
      rw [hu] at hstep
      rwa [next_inj hstep]

/-- Settles O7: each value is the one `State.reset` writes, the cleared buffer read by `Memory.read_nil`. -/
theorem resetLeavesStatedValues : Obligations.ResetLeavesStatedValues :=
  ⟨rfl, rfl, rfl, rfl, Memory.read_nil, rfl⟩

/-- Settles O8: idle, with both buffers empty and the default parameters. -/
theorem invHoldsAtReset : Obligations.InvHoldsAtReset where
  params := by decide
  txMem := Memory.wf_nil _
  rxMem := Memory.wf_nil _
  idle := fun _ => ⟨rfl, rfl⟩
  flen := nofun
  off := nofun
  frame := nofun
  rxLen := Nat.zero_le _
  rxAbove := fun a _ => Memory.read_nil a

/-- Settles O11: each flag is a test of one state element. -/
theorem flagsAreFunctionsOfState : Obligations.FlagsAreFunctionsOfState :=
  ⟨rfl, rfl, fun _ => ⟨beq_iff_eq, decide_eq_true_iff⟩⟩

end Sys2Proof.Machine

/-! PROOFS. The family other: the checksum's values and laws (40_checksum8.md R85 to R88), the frame (30_encoding.md R60) and the
header codec (41_header_codec.md R95 to R97). -/

namespace Sys2Proof.Machine

/-! ### The rows, each by the value of its function -/

/-- Settles O12: the value is `cks8`. -/
theorem cks8GivesSumModulo256 : Obligations.Cks8GivesSumModulo256 :=
  fun bs _ => ⟨cks8 bs, cks8_toNat bs, rfl⟩

/-- Settles O13: the appended byte is `cks8`. -/
theorem cks8GenAppendsChecksum : Obligations.Cks8GenAppendsChecksum :=
  fun p _ => ⟨cks8 p, cks8_toNat p, rfl⟩

/-- Settles O14: the verdict is `cks8Chk`. -/
theorem cks8ChkComparesLastByte : Obligations.Cks8ChkComparesLastByte :=
  fun p c _ => ⟨cks8Chk (p ++ [c]), cks8Chk_append_iff p c, rfl⟩

/-- Settles O15: the verdict is the free value. -/
theorem cks8ChkOfEmptyCompletes : Obligations.Cks8ChkOfEmptyCompletes :=
  fun _ => ⟨Config.emptyFrameVerdict, rfl⟩

/-- Settles O20: the validity presented is the validator's verdict on the frame. -/
theorem frameIsPayloadThenChecksum : Obligations.FrameIsPayloadThenChecksum := by
  intro p c s
  have hvalid := cks8Chk_append_iff p c
  rw [cks8Chk_append] at hvalid
  exact ⟨cks8 p == c, hvalid, rfl⟩

/-! ### The laws of 40_checksum8.md R88 -/

/-- Settles O16: the law as bytes, read as numbers. -/
theorem checksumOfConcatenation : Obligations.ChecksumOfConcatenation := by
  intro a b
  rw [cks8_append, BitVec.toNat_add]

/-- R88 (c): the checksum byte of a generated frame is the one R87 asks for. -/
@[simp] theorem cks8Chk_cks8Gen (p : Bytes) : cks8Chk (cks8Gen p) = true := by
  rw [cks8Gen, cks8Chk_append, beq_self_eq_true]

/-- Settles O17: the validator recomputes the byte the generator appended. -/
theorem generatedFrameIsValid : Obligations.GeneratedFrameIsValid := cks8Chk_cks8Gen

/-- One byte replaced moves the checksum by the difference of the two bytes. -/
theorem cks8_set (p : Bytes) (i : Nat) (b : Byte) (hi : i < p.length) : cks8 (p.set i b) + p[i] = cks8 p + b := by
  have hcut : p = p.take i ++ p[i] :: p.drop (i + 1) := by simp
  have hset : p.set i b = p.take i ++ b :: p.drop (i + 1) := by simp [List.set_eq_take_append_cons_drop, hi]
  have hp : cks8 p = (p.take i).sum + (p[i] + (p.drop (i + 1)).sum) := by
    rw [cks8_eq_sum]
    conv_lhs => rw [hcut]
    rw [List.sum_append, List.sum_cons]
  rw [hset, hp, cks8_eq_sum, List.sum_append, List.sum_cons]
  ring

/-- Two payloads that differ in one byte have different checksums. -/
theorem cks8_set_ne {p : Bytes} {i : Nat} {b : Byte} (hi : i < p.length) (hb : p[i] ≠ b) : cks8 (p.set i b) ≠ cks8 p := by
  intro heq
  have hmove := cks8_set p i b hi
  rw [heq] at hmove
  exact hb (add_left_cancel hmove)

/-- Settles O18: a changed payload byte changes the sum only, a changed checksum byte the other side only. -/
theorem oneChangedByteIsDetected : Obligations.OneChangedByteIsDetected := by
  intro f i b hi hvalid hb
  obtain ⟨p, c, rfl⟩ : ∃ p c, f = p ++ [c] :=
    ⟨f.dropLast, f.getLast (List.ne_nil_of_length_pos (by omega)), (List.dropLast_append_getLast _).symm⟩
  rw [cks8Chk_append, beq_iff_eq] at hvalid
  by_cases hpay : i < p.length
  · rw [List.getElem_append_left hpay] at hb
    rw [List.set_append_left _ _ hpay, cks8Chk_append, beq_eq_false_iff_ne, ← hvalid]
    exact cks8_set_ne hpay hb
  · obtain rfl : i = p.length := by rw [List.length_append, List.length_singleton] at hi; omega
    rw [List.getElem_concat_length rfl] at hb
    rw [List.set_append_right _ _ le_rfl, Nat.sub_self, List.set_cons_zero, cks8Chk_append, beq_eq_false_iff_ne, hvalid]
    exact hb

/-- Settles O19: the checksum is a sum, and a sum does not depend on the order. -/
theorem reorderedPayloadIsNotDetected : Obligations.ReorderedPayloadIsNotDetected := by
  intro p q c hperm
  have hsum : cks8 p = cks8 q := by rw [cks8_eq_sum, cks8_eq_sum, hperm.sum_eq]
  rw [cks8Chk_append, cks8Chk_append, hsum]

/-! ### The header codec -/

/-- Settles O21: the byte is `hdrEnc`. -/
theorem hdrEncTruncatesOffset : Obligations.HdrEncTruncatesOffset :=
  fun off _ => ⟨hdrEnc off, hdrEnc_toNat off, rfl⟩

/-- Settles O22: the first equivalence is the definition of `final`, the second is `hdrDec_final`. -/
theorem hdrDecGivesPositionAndFinal : Obligations.HdrDecGivesPositionAndFinal :=
  fun h _ => ⟨(hdrDec h).2, decide_eq_true_iff, hdrDec_final h, rfl⟩

/-- The header of an offset is the sentinel exactly where the offset is a multiple of 256. -/
theorem hdrEnc_eq_zero (off : Nat) : hdrEnc off = 0 ↔ off % 256 = 0 := by
  rw [← hdrEnc_toNat, ← BitVec.toNat_inj]
  rfl

/-- Settles O23: both sides are about the remainder of the offset modulo 256. -/
theorem headerRoundTripsBelow256 : Obligations.HeaderRoundTripsBelow256 := by
  intro off
  rw [hdrDec_pos, hdrEnc_toNat, hdrDec_final, hdrEnc_eq_zero]
  omega

end Sys2Proof.Machine

/-! PROOFS. The family other: the packets of `FRAG` (42_fragmenter.md R105 to R109, R116). -/

namespace Sys2Proof.Machine

/-! ### The geometry counted from the frame's end -/

/-- R116 (e): the `k`-th packet sent starts `PS*(k+1)` bytes below the frame's end, the last one at 0. -/
theorem fragOff_eq_sub {ps f k : Nat} (h : 1 ≤ ps) (hf : 1 ≤ f) (hk : k < packetCount ps f) :
    fragOff ps f k = f - ps * (k + 1) := by
  have hend := fragOff_add_fragLen hf hk
  rw [Nat.mul_succ]
  by_cases hlast : k + 1 < packetCount ps f
  · have hlen : fragLen ps f k = ps := by rw [fragLen, if_pos hlast]
    omega
  · have hzero := (fragOff_eq_zero h hk).2 (by omega)
    have hlen := fragLen_le (f := f) (k := k) h
    omega

/-- R106: the number of packets is the frame's length over `PS`, rounded up. -/
theorem packetCount_eq_ceil {ps f : Nat} (h : 1 ≤ ps) (hf : 1 ≤ f) : packetCount ps f = (f + ps - 1) / ps := by
  have hsplit := frame_split (ps := ps) hf
  have hpos := headLen_pos (f := f) h
  have hle := headLen_le (f := f) h
  obtain ⟨m, hm⟩ : ∃ m, packetCount ps f = m + 1 := ⟨_, (Nat.sub_add_cancel (packetCount_pos ps f)).symm⟩
  rw [hm, Nat.add_sub_cancel] at hsplit
  rw [hm]
  symm
  apply Nat.div_eq_of_lt_le
  · rw [Nat.add_mul, Nat.mul_comm m ps]; omega
  · rw [Nat.add_mul, Nat.add_mul, Nat.mul_comm m ps]; omega

theorem headLen_eq (ps f : Nat) : headLen ps f = if f % ps = 0 then ps else f % ps := rfl

/-! ### The packets -/

theorem framePacket_head? (ps : Nat) (f : Bytes) (k : Nat) : (framePacket ps f k).head? = some (hdrEnc (fragOff ps f.length k)) :=
  rfl

theorem framePacket_tail (ps : Nat) (f : Bytes) (k : Nat) :
    (framePacket ps f k).tail = (f.drop (fragOff ps f.length k)).take (fragLen ps f.length k) := rfl

theorem framePacket_length {ps : Nat} {f : Bytes} {k : Nat} (hf : 1 ≤ f.length) (hk : k < packetCount ps f.length) :
    (framePacket ps f k).length = fragLen ps f.length k + 1 := by
  have hend := fragOff_add_fragLen hf hk
  rw [framePacket, List.length_cons, List.length_take, List.length_drop]
  omega

theorem framePackets_getElem {ps : Nat} {f : Bytes} {k : Nat} (hk : k < (framePackets ps f).length) :
    (framePackets ps f)[k] = framePacket ps f k := by
  simp [framePackets]

theorem framePackets_drop {ps : Nat} {f : Bytes} {k : Nat} (hk : k < packetCount ps f.length) :
    (framePackets ps f).drop k = framePacket ps f k :: (framePackets ps f).drop (k + 1) := by
  rw [List.drop_eq_getElem_cons (by rw [framePackets_length]; exact hk), framePackets_getElem]

/-- A packet of a frame but the last: `PS` bytes from `r + PS*(n-2-k)` (R107). -/
theorem framePacket_of_not_last {ps : Nat} {f : Bytes} {k : Nat} (hk : k + 1 < packetCount ps f.length) :
    framePacket ps f k = hdrEnc (headLen ps f.length + ps * (packetCount ps f.length - 2 - k)) ::
      (f.drop (headLen ps f.length + ps * (packetCount ps f.length - 2 - k))).take ps := by
  rw [framePacket, fragOff, fragLen, if_pos hk, if_pos hk]

/-- The last packet of a frame: `r` bytes from 0, under the header 0x00 (R107). -/
theorem framePacket_last {ps : Nat} {f : Bytes} {k : Nat} (hk : k + 1 = packetCount ps f.length) :
    framePacket ps f k = 0x00 :: f.take (headLen ps f.length) := by
  rw [framePacket, fragOff, fragLen, if_neg (by omega), if_neg (by omega), List.drop_zero]
  rfl

/-- Settles O24: `r` is `headLen`, `n` is `packetCount`, and the packets are those of `framePackets`, the last one apart. -/
theorem fragGivesPacketsTailFirst : Obligations.FragGivesPacketsTailFirst := by
  intro p s hvalid
  have hps := hvalid.1
  have hF : 1 ≤ p.length + 1 := Nat.le_add_left 1 _
  refine ⟨frag s.params.ps p, rfl, fun hp => by rw [hp, frag_nil], fun hp => ?_⟩
  refine ⟨cks8 p, headLen s.params.ps (p.length + 1), packetCount s.params.ps (p.length + 1), cks8_toNat p, headLen_eq _ _, rfl,
    packetCount_eq_ceil hps hF, frame_split hF, frag_length hp, fun k hk => ?_, ?_⟩
  · rw [frag_cons hp, framePackets_getElem? (by rw [cks8Gen_length]; omega),
      framePacket_of_not_last (by rwa [cks8Gen_length]), cks8Gen_length]
    rfl
  · have hn := packetCount_pos s.params.ps (p.length + 1)
    rw [frag_cons hp, framePackets_getElem? (by rw [cks8Gen_length]; omega),
      framePacket_last (by rw [cks8Gen_length]; omega), cks8Gen_length]
    rfl

/-- R116 (a), packet by packet: the fragments of the first `k` packets sent, last one first, are the frame's end from where the
`k`-th stops. -/
theorem fragments_cover_end {ps : Nat} {f : Bytes} (h : 1 ≤ ps) (hf : 1 ≤ f.length) {k : Nat}
    (hk : k ≤ packetCount ps f.length) :
    ((((List.range k).map (framePacket ps f)).reverse).map List.tail).flatten = f.drop (f.length - ps * k) := by
  induction k with
  | zero => simp
  | succ k ih =>
    have hend := fragOff_add_fragLen (ps := ps) hf (by omega : k < packetCount ps f.length)
    rw [List.range_succ, List.map_append, List.reverse_append, List.map_append, List.flatten_append, ih (by omega)]
    simp only [List.map_cons, List.map_nil, List.reverse_singleton, List.flatten_cons, List.flatten_nil, List.append_nil]
    rw [framePacket_tail, show f.length - ps * k = fragOff ps f.length k + fragLen ps f.length k by omega, ← List.drop_drop,
      List.take_append_drop, fragOff_eq_sub h hf (by omega)]

/-- Headers count one byte each. -/
theorem sum_length_eq_tails (L : List Bytes) (h : ∀ b ∈ L, b ≠ []) :
    (L.map List.length).sum = ((L.map List.tail).flatten).length + L.length := by
  induction L with
  | nil => rfl
  | cons b L ih =>
    have hb := List.length_pos_iff.2 (h b List.mem_cons_self)
    simp only [List.map_cons, List.sum_cons, List.flatten_cons, List.length_append, List.length_tail, List.length_cons,
      ih fun c hc => h c (List.mem_cons_of_mem _ hc)]
    omega

theorem frag_ne_nil {ps : Nat} {p b : Bytes} (hp : p ≠ []) (hb : b ∈ frag ps p) : b ≠ [] := by
  rw [frag_cons hp, framePackets] at hb
  obtain ⟨k, -, rfl⟩ := List.mem_map.1 hb
  exact List.cons_ne_nil _ _

/-- Settles O25: the covering of the whole frame, and then its length with one header byte a packet. -/
theorem fragmentsCoverFrame : Obligations.FragmentsCoverFrame := by
  intro ps p hps hp
  have hcover : ((frag ps p).reverse.map List.tail).flatten = cks8Gen p := by
    have hF : 1 ≤ (cks8Gen p).length := by rw [cks8Gen_length]; omega
    rw [frag_cons hp, framePackets, fragments_cover_end hps hF le_rfl, Nat.sub_eq_zero_of_le (frame_le_packets hps hF),
      List.drop_zero]
  refine ⟨hcover, ?_⟩
  have hsum := sum_length_eq_tails (frag ps p).reverse fun b hb => frag_ne_nil hp (List.mem_reverse.1 hb)
  rwa [hcover, cks8Gen_length, List.length_reverse, List.map_reverse, List.sum_reverse] at hsum

/-- Settles O26: the header is the offset of `fragOff_eq_sub` modulo 256, and the last offset is 0. -/
theorem headersStepDownByPacketSize : Obligations.HeadersStepDownByPacketSize := by
  intro ps p k hk hps
  have hp : p ≠ [] := by rintro rfl; exact absurd hk (Nat.not_lt_zero k)
  have hlen := frag_length (ps := ps) hp
  have hget : (frag ps p)[k] = framePacket ps (cks8Gen p) k := by
    simp only [frag_cons hp, framePackets_getElem]
  rw [hlen] at hk
  rw [hget, framePacket_head?, Option.map_some, hdrEnc_toNat, hlen, cks8Gen_length]
  split_ifs with hlast
  · rw [fragOff_eq_sub hps (Nat.le_add_left 1 _) hk]
  · rw [(fragOff_eq_zero hps hk).2 (by omega), Nat.zero_mod]

end Sys2Proof.Machine

/-! PROOFS. The family other: what any row can do, said once (`RowCase`), and the statements about which parts of the state and
which outputs a row can reach (20_memory.md R40, R48, R51; 44_control.md; 60_exceptions.md R163, R166). -/

namespace Sys2Proof.Machine

/-! ### Every row -/

theorem exec_of_isPure {i : Instr} (h : isPure i = true) (s : State) : ∃ r, exec i s = .next (s.answer r) := by
  cases i with
  | frame | cks8 | cks8Gen | cks8Chk | hdrEnc | hdrDec | frag => exact ⟨_, rfl⟩
  | _ => cases h

theorem exec_of_isOutput {i : Instr} (h : isOutput i = true) (s : State) : ∃ e, exec i s = .next (s.emit e) := by
  cases i with
  | pktOut | txDone | frameOut | refused => exact ⟨_, rfl⟩
  | _ => cases h

/-- A row that only computes is no event, neither given nor emitted. -/
theorem no_event_of_isPure {i : Instr} (h : isPure i = true) :
    i.issuer.isSome = false ∧ isOutput i = false := by
  cases i with
  | frame | cks8 | cks8Gen | cks8Chk | hdrEnc | hdrDec | frag => exact ⟨rfl, rfl⟩
  | _ => cases h

/-- An output event is no event of either side. -/
theorem no_input_of_isOutput {i : Instr} (h : isOutput i = true) : isTxEvent i = false ∧ isRxEvent i = false := by
  cases i with
  | pktOut | txDone | frameOut | refused => exact ⟨rfl, rfl⟩
  | _ => cases h

/-- The cases of any row, from the state before to the state after. -/
inductive RowCase : Instr → State → State → Prop
  /-- A row that only computes presents its value. -/
  | pure {i s} (r : FnResult) : isPure i = true → RowCase i s (s.answer r)
  /-- An output event on its own is emitted. -/
  | output {i s} (e : OutEvent) : isOutput i = true → RowCase i s (s.emit e)
  /-- An input event. -/
  | input {i s t} : i.issuer.isSome = true → InputCase i s t → RowCase i s t
  /-- The final packet's row is the reception of that packet (30_encoding.md R65). -/
  | pktFinal {d s t} : InputCase (.rxPacket (0x00 :: d)) s t → RowCase (.pktFinal d) s t
  /-- The non-final packet's row, with any header. -/
  | pktNonfinal {o d s} : RowCase (.pktNonfinal o d) s (s.takeFragment o.toNat d)

/-- Every next state of a row is one of the cases. -/
theorem exec_rowCase {i : Instr} {s t : State} (h : exec i s = .next t) : RowCase i s t := by
  cases i with
  | frame | cks8 | cks8Gen | cks8Chk | hdrEnc | hdrDec | frag => rw [next_inj h]; exact .pure _ rfl
  | pktOut | txDone | frameOut | refused => rw [next_inj h]; exact .output _ rfl
  | txStart | txAck | rxPacket | rxClear | abort | reset => exact .input rfl (exec_inputCase rfl h)
  | pktFinal d => exact .pktFinal (exec_inputCase (i := .rxPacket (0x00 :: d)) rfl h)
  | pktNonfinal o d => rw [next_inj h]; exact .pktNonfinal

@[simp] theorem deliver_fromTx (f : Bytes) : (deliver f).fromTx = false := rfl

/-! ### Outputs, parameters, the model's own fields -/

/-- The outputs grew by at most one event. -/
def GrowsByAtMostOne (before after : List OutEvent) : Prop := after = before ∨ ∃ e, after = before ++ [e]

theorem InputCase.outputs_grow {i : Instr} {s t : State} (h : InputCase i s t) : GrowsByAtMostOne s.outputs t.outputs := by
  cases h with
  | empty | ackIdle | rxEmpty | rxNon | rxZero | rxClear | abort | reset => exact .inl rfl
  | busy | long | ackDone | rxFin => exact .inr ⟨_, rfl⟩
  | start _ _ _ ht | ackNext _ _ ht => subst ht; exact .inr ⟨_, rfl⟩

/-- Settles O49, case by case. -/
theorem oneEventEmitsAtMostOneOutput : Obligations.OneEventEmitsAtMostOneOutput := by
  intro i s t h
  cases exec_rowCase h with
  | pure | pktNonfinal => exact .inl rfl
  | output e => exact .inr ⟨e, rfl⟩
  | input _ hc | pktFinal hc => exact hc.outputs_grow

theorem InputCase.keeps_own_fields {i : Instr} {s t : State} (h : InputCase i s t) :
    t.params = s.params ∧ t.pending = s.pending ∧ t.results = s.results := by
  cases h with
  | start _ _ _ ht | ackNext _ _ ht => subst ht; exact ⟨rfl, rfl, rfl⟩
  | _ => exact ⟨rfl, rfl, rfl⟩

/-- Settles O54: only the rows that compute present a value, and they are no input events. -/
theorem parametersNeverChange : Obligations.ParametersNeverChange := by
  intro i s t h
  cases exec_rowCase h with
  | pure r hpure => exact ⟨rfl, rfl, fun hi => absurd hi (ne_true_of_eq_false (no_event_of_isPure hpure).1)⟩
  | output | pktNonfinal => exact ⟨rfl, rfl, fun _ => rfl⟩
  | input _ hc | pktFinal hc =>
    obtain ⟨hparams, hpending, hresults⟩ := hc.keeps_own_fields
    exact ⟨hparams, hpending, fun _ => hresults⟩

/-- Settles O53: presenting a value writes `results` only, emitting an event `outputs` only. -/
theorem pureAndOutputRowsTouchNoState : Obligations.PureAndOutputRowsTouchNoState := by
  rintro i s (hpure | hout)
  · obtain ⟨r, hr⟩ := exec_of_isPure hpure s
    exact ⟨_, hr, ⟨rfl, rfl, rfl, rfl⟩, ⟨rfl, rfl⟩, rfl, rfl, fun _ => rfl, fun _ => rfl, fun _ => rfl,
      fun hout => absurd hout (ne_true_of_eq_false (no_event_of_isPure hpure).2)⟩
  · obtain ⟨e, he⟩ := exec_of_isOutput hout s
    exact ⟨_, he, ⟨rfl, rfl, rfl, rfl⟩, ⟨rfl, rfl⟩, rfl, rfl, fun _ => rfl, fun _ => rfl,
      fun hpure => absurd hout (ne_true_of_eq_false (no_event_of_isPure hpure).2), fun _ => rfl⟩

/-- Settles O48: each row is `State.emit` of its event. -/
theorem outputRowsEmitTheirEvent : Obligations.OutputRowsEmitTheirEvent :=
  fun _ => ⟨fun _ => rfl, rfl, fun _ _ => rfl, fun _ => rfl⟩

/-! ### Control -/

/-- Settles O46: the cleared buffer is the empty list of cells. -/
theorem rxClearClearsReassembler : Obligations.RxClearClearsReassembler :=
  fun _ => ⟨[], rfl, Memory.read_nil⟩

/-- Settles O47: both rows are `State.clearAll`; the cleared buffer is the empty list of cells. -/
theorem abortAndResetReturnToResetValues : Obligations.AbortAndResetReturnToResetValues :=
  fun _ => ⟨[], Memory.read_nil, rfl, rfl⟩

/-! ### The two sides of the block -/

theorem InputCase.tx_keeps_rx {i : Instr} {s t : State} (h : InputCase i s t) (hi : isTxEvent i = true) :
    sameRx s t ∧ t.rxOutputs = s.rxOutputs := by
  cases h with
  | empty | ackIdle => exact ⟨⟨rfl, rfl⟩, rfl⟩
  | busy | long | ackDone => exact ⟨⟨rfl, rfl⟩, by simp [State.rxOutputs, OutEvent.fromTx]⟩
  | start _ _ _ ht | ackNext _ _ ht => subst ht; exact ⟨⟨rfl, rfl⟩, by simp [State.rxOutputs, OutEvent.fromTx]⟩
  | _ => cases hi

theorem InputCase.rx_keeps_tx {i : Instr} {s t : State} (h : InputCase i s t) (hi : isRxEvent i = true) :
    sameTx s t ∧ t.txOutputs = s.txOutputs := by
  cases h with
  | rxEmpty | rxNon | rxZero | rxClear => exact ⟨⟨rfl, rfl, rfl, rfl⟩, rfl⟩
  | rxFin => exact ⟨⟨rfl, rfl, rfl, rfl⟩, by simp [State.txOutputs]⟩
  | _ => cases hi

theorem RowCase.tx_keeps_rx {i : Instr} {s t : State} (h : RowCase i s t) (hi : isTxEvent i = true) :
    sameRx s t ∧ t.rxOutputs = s.rxOutputs := by
  cases h with
  | pure => exact ⟨⟨rfl, rfl⟩, rfl⟩
  | output _ hout => exact absurd hi (ne_true_of_eq_false (no_input_of_isOutput hout).1)
  | input _ hc => exact hc.tx_keeps_rx hi
  | pktFinal | pktNonfinal => cases hi

theorem RowCase.rx_keeps_tx {i : Instr} {s t : State} (h : RowCase i s t) (hi : isRxEvent i = true) :
    sameTx s t ∧ t.txOutputs = s.txOutputs := by
  cases h with
  | pure | pktNonfinal => exact ⟨⟨rfl, rfl, rfl, rfl⟩, rfl⟩
  | output _ hout => exact absurd hi (ne_true_of_eq_false (no_input_of_isOutput hout).2)
  | input _ hc => exact hc.rx_keeps_tx hi
  | pktFinal hc => exact hc.rx_keeps_tx rfl

/-- Settles O51: the buffer of the other side is the same data, so every byte of it reads the same. -/
theorem noEventReachesTheOtherSide : Obligations.NoEventReachesTheOtherSide := by
  intro i s t h
  refine ⟨fun htx => ?_, fun hrx => ?_⟩
  · obtain ⟨hsame, houts⟩ := (exec_rowCase h).tx_keeps_rx htx
    exact ⟨hsame, fun a => by rw [hsame.1], houts⟩
  · obtain ⟨hsame, houts⟩ := (exec_rowCase h).rx_keeps_tx hrx
    exact ⟨hsame, fun a => by rw [hsame.2.1], houts⟩

end Sys2Proof.Machine

/-! PROOFS. The family other: the transmit side (42_fragmenter.md R110 to R115, 10_state.md R22 to R24, 20_memory.md R51,
60_exceptions.md R163, R166). -/

namespace Sys2Proof.Machine

/-! ### The two states of the transmit side -/

theorem TxState.ne_sending_of_idle {x : TxState} (h : x = .idle) : x ≠ .sending := by rw [h]; decide

theorem TxState.ne_idle_of_sending {x : TxState} (h : x = .sending) : x ≠ .idle := by rw [h]; decide

theorem TxState.idle_of_ne_sending {x : TxState} (h : x ≠ .sending) : x = .idle := by
  cases x with
  | idle => rfl
  | sending => exact absurd rfl h

/-! ### `TX_START` and `TX_ACK`, one equation a branch -/

theorem execTxStart_busy {s : State} (p : Bytes) (hs : s.txState = .sending) : execTxStart p s = .next (s.refuse .busy) := by
  rw [execTxStart, if_pos hs]

theorem execTxStart_nil {s : State} (hs : s.txState = .idle) : execTxStart [] s = .next s := by
  rw [execTxStart, if_neg (TxState.ne_sending_of_idle hs), if_pos List.length_nil]

theorem execTxStart_tooLong {s : State} {p : Bytes} (hs : s.txState = .idle) (hp : p ≠ [])
    (hcap : s.params.txCap < p.length + 1) :
    execTxStart p s = .next (s.refuse .tooLong) := by
  rw [execTxStart, if_neg (TxState.ne_sending_of_idle hs), if_neg (mt List.length_eq_zero_iff.1 hp), if_pos hcap]

theorem execTxStart_accepted {s : State} {p : Bytes} (hs : s.txState = .idle) (hp : p ≠ [])
    (hcap : p.length + 1 ≤ s.params.txCap) :
    execTxStart p s = (s.loadFrame p).sendPkt := by
  rw [execTxStart, if_neg (TxState.ne_sending_of_idle hs), if_neg (mt List.length_eq_zero_iff.1 hp), if_neg (Nat.not_lt.2 hcap)]

theorem execTxAck_idle {s : State} (hs : s.txState = .idle) : execTxAck s = .next s := by
  rw [execTxAck, if_pos hs]

theorem execTxAck_head {s : State} (hs : s.txState = .sending) (hoff : s.txOff = 0) :
    execTxAck s = .next (s.finishTx.emit .txDone) := by
  rw [execTxAck, if_neg (TxState.ne_idle_of_sending hs), if_pos hoff]

theorem execTxAck_more {s : State} (hs : s.txState = .sending) (hoff : s.txOff ≠ 0) : execTxAck s = s.advance.sendPkt := by
  rw [execTxAck, if_neg (TxState.ne_idle_of_sending hs), if_neg hoff]

/-- Settles O27: the three refusing or ignoring branches. -/
theorem txStartRefusals : Obligations.TxStartRefusals := by
  intro p s
  refine ⟨execTxStart_busy p, ?_, execTxStart_tooLong⟩
  rintro hs rfl
  exact execTxStart_nil hs

/-! ### The packet at `tx_off` -/

/-- The packet at `tx_off` of the loaded frame, where its bytes exist: what `TXPKT` answers (`State.txPkt_eq`). -/
def State.packetAtOff (s : State) : Bytes :=
  hdrEnc s.txOff :: s.txBuf.readBytes s.txOff (fragLenAt s.params.ps s.txFlen s.txOff)

/-- While sending, the fragment at `tx_off` lies in the frame. -/
theorem Inv.fragment_le {s : State} (h : Inv s) (hs : s.txState = .sending) :
    s.txOff + fragLenAt s.params.ps s.txFlen s.txOff ≤ s.txFlen :=
  (h.offsetInFrame hs).end_le (by obtain ⟨hmin, -⟩ := h.flen hs; omega)

/-- While sending, the packet at `tx_off` is emitted. -/
theorem Inv.sendPkt_eq {s : State} (h : Inv s) (hs : s.txState = .sending) :
    s.sendPkt = .next (s.emit (.pktOut s.packetAtOff)) :=
  State.sendPkt_eq ((h.fragment_le hs).trans (h.flen hs).2)

theorem State.packetAtOff_length (s : State) : s.packetAtOff.length = fragLenAt s.params.ps s.txFlen s.txOff + 1 := by
  rw [State.packetAtOff, List.length_cons, Memory.readBytes_length]

theorem State.packetAtOff_head? (s : State) : s.packetAtOff.head? = some (hdrEnc s.txOff) := rfl

theorem State.packetAtOff_get {s : State} {k : Nat} (hk : k + 1 < s.packetAtOff.length) :
    s.packetAtOff[k + 1]? = some (s.txBuf.read (s.txOff + k)) := by
  rw [State.packetAtOff_length] at hk
  rw [State.packetAtOff, List.getElem?_cons_succ, List.getElem?_eq_getElem (by rw [Memory.readBytes_length]; omega),
    Memory.readBytes_getElem]

theorem fragLenAt_pos {ps : Nat} (h : 1 ≤ ps) (f off : Nat) : 1 ≤ fragLenAt ps f off := by
  rw [fragLenAt]; split_ifs
  · exact headLen_pos h
  · exact h

theorem fragLenAt_le {ps : Nat} (h : 1 ≤ ps) (f off : Nat) : fragLenAt ps f off ≤ ps := by
  rw [fragLenAt]; split_ifs
  · exact headLen_le h
  · exact le_rfl

theorem Memory.readBytes_eq_map (m : Memory) (a n : Nat) : m.readBytes a n = (List.range n).map fun i => m.read (a + i) :=
  List.ext_getElem (by simp) fun i _ _ => by simp [Memory.readBytes_getElem]

/-- Settles O29: `packetAtOff` after the offset has moved on, its bytes listed one by one. -/
theorem txAckSendsNextOrFinishes : Obligations.TxAckSendsNextOrFinishes := by
  intro s
  refine ⟨execTxAck_idle, execTxAck_head, fun hinv hs hoff => ?_⟩
  have hlen : fragLenAt s.params.ps s.txFlen (s.txOff - s.params.ps) =
      if s.txOff ≤ s.params.ps then headLen s.params.ps s.txFlen else s.params.ps := by
    simp only [fragLenAt, Nat.sub_eq_zero_iff_le]
  show execTxAck s = _
  rw [execTxAck_more hs hoff, (hinv.advance hs).sendPkt_eq hs, State.packetAtOff, Memory.readBytes_eq_map]
  simp only [State.advance_txOff, State.advance_params, State.advance_txFlen, State.advance_txBuf, nextOff, hlen]
  rfl

/-! ### A run of the transmit side -/

/-- The block sends the frame `f`, and its `k`-th packet is the one outstanding. -/
structure SendsFrame (s : State) (f : Bytes) (k : Nat) : Prop where
  ps : 1 ≤ s.params.ps
  sending : s.txState = .sending
  ne : f ≠ []
  frame : s.txBuf.readBytes 0 f.length = f
  flen : s.txFlen = f.length
  cap : f.length ≤ s.params.txCap
  lt : k < packetCount s.params.ps f.length
  off : s.txOff = fragOff s.params.ps f.length k

theorem SendsFrame.sendPkt {s : State} {f : Bytes} {k : Nat} (h : SendsFrame s f k) :
    s.sendPkt = .next (s.emit (.pktOut (framePacket s.params.ps f k))) :=
  State.sendPkt_frame h.ps h.ne h.frame h.flen h.cap h.lt h.off

theorem SendsFrame.emit {s : State} {f : Bytes} {k : Nat} (h : SendsFrame s f k) (e : OutEvent) : SendsFrame (s.emit e) f k :=
  { h with }

theorem SendsFrame.advance {s : State} {f : Bytes} {k : Nat} (h : SendsFrame s f k)
    (hk : k + 1 < packetCount s.params.ps f.length) : SendsFrame s.advance f (k + 1) :=
  { h with
    lt := hk
    off := by rw [State.advance_txOff, h.off]; exact nextOff_eq h.ps (List.length_pos_iff.2 h.ne) hk }

theorem SendsFrame.off_eq_zero {s : State} {f : Bytes} {k : Nat} (h : SendsFrame s f k) :
    s.txOff = 0 ↔ k + 1 = packetCount s.params.ps f.length := by
  rw [h.off, fragOff_eq_zero h.ps h.lt]

/-- A payload that `TX_START` accepts is being sent from its first packet on. -/
theorem Inv.sendsFrame_loadFrame {s : State} (h : Inv s) {p : Bytes} (hcap : p.length + 1 ≤ s.params.txCap) :
    SendsFrame (s.loadFrame p) (cks8Gen p) 0 where
  ps := h.params.1
  sending := rfl
  ne := cks8Gen_ne_nil p
  frame := (State.loadFrame_read h.txMem hcap).2.2
  flen := (cks8Gen_length p).symm
  cap := by rw [cks8Gen_length]; exact hcap
  lt := packetCount_pos _ _
  off := by rw [cks8Gen_length]; exact firstOff_eq h.params.1 (Nat.le_add_left 1 _)

/-- `TX_START` of an accepted payload loads the frame and emits the first packet of its `FRAG`. -/
theorem execTxStart_first {s : State} (h : Inv s) {p : Bytes} (hs : s.txState = .idle) (hp : p ≠ [])
    (hcap : p.length + 1 ≤ s.params.txCap) :
    execTxStart p s = .next ((s.loadFrame p).emit (.pktOut (framePacket s.params.ps (cks8Gen p) 0))) := by
  rw [execTxStart_accepted hs hp hcap, (h.sendsFrame_loadFrame hcap).sendPkt]
  rfl

/-- Settles O28: what TXB then reads is `State.loadFrame_read`. -/
theorem txStartLoadsFrame : Obligations.TxStartLoadsFrame := by
  intro p s hinv hs hlen hcap
  have hp : p ≠ [] := List.length_pos_iff.1 hlen
  refine ⟨(s.loadFrame p).txBuf, framePacket s.params.ps (cks8Gen p) 0, execTxStart_first hinv hs hp hcap,
    (State.loadFrame_read hinv.txMem hcap).2.1, ?_⟩
  rw [frag_cons hp, List.head?_eq_getElem?, framePackets_getElem? (packetCount_pos _ _)]

/-- From the `k`-th packet on, the `m + 1` acknowledgements still to come emit the packets after it and then `TX_DONE`. -/
theorem SendsFrame.run {s : State} {f : Bytes} {k : Nat} (m : Nat) (h : SendsFrame s f k)
    (hm : k + 1 + m = packetCount s.params.ps f.length) :
    execAll (List.replicate (m + 1) .txAck) s = .next { s with
      txState := .idle, txFlen := 0, txOff := 0,
      outputs := s.outputs ++ ((framePackets s.params.ps f).drop (k + 1)).map OutEvent.pktOut ++ [.txDone] } := by
  induction m generalizing s k with
  | zero =>
    have hoff := h.off_eq_zero.2 hm
    rw [List.replicate_succ, execAll_cons (i := .txAck) (execTxAck_head h.sending hoff),
      List.drop_eq_nil_of_le (by rw [framePackets_length]; omega), List.map_nil, List.append_nil]
    simp only [List.replicate_zero, execAll, State.finishTx, State.emit, hoff]
  | succ m ih =>
    have hlt : k + 1 < packetCount s.params.ps f.length := by omega
    have hack : exec .txAck s = .next (s.advance.emit (.pktOut (framePacket s.params.ps f (k + 1)))) := by
      show execTxAck s = _
      rw [execTxAck_more h.sending (mt h.off_eq_zero.1 (by omega)), (h.advance hlt).sendPkt]
      rfl
    rw [List.replicate_succ, execAll_cons hack,
      ih ((h.advance hlt).emit _) (by rw [State.emit_params, State.advance_params]; omega), framePackets_drop hlt]
    simp

/-- Settles O30: the first packet by `TX_START`, the others by `SendsFrame.run`. -/
theorem transmitRunEmitsFragThenDone : Obligations.TransmitRunEmitsFragThenDone := by
  intro p s hinv hs hlen hcap
  have hp : p ≠ [] := List.length_pos_iff.1 hlen
  have hn := packetCount_pos s.params.ps (p.length + 1)
  obtain ⟨m, hm⟩ : ∃ m, packetCount s.params.ps (p.length + 1) = m + 1 := ⟨_, (Nat.sub_add_cancel hn).symm⟩
  have hrun := ((hinv.sendsFrame_loadFrame hcap).emit (.pktOut (framePacket s.params.ps (cks8Gen p) 0))).run m
    (by rw [State.emit_params, State.loadFrame_params, cks8Gen_length, hm]; omega)
  have hfrag : frag s.params.ps p =
      framePacket s.params.ps (cks8Gen p) 0 :: (framePackets s.params.ps (cks8Gen p)).drop 1 := by
    rw [frag_cons hp, ← framePackets_drop (packetCount_pos _ _), List.drop_zero]
  rw [frag_length hp, hm, execAll_cons (i := .txStart p) (execTxStart_first hinv hs hp hcap)]
  refine ⟨_, hrun, ?_, rfl, rfl, rfl, ⟨rfl, rfl⟩, rfl, rfl, rfl⟩
  rw [hfrag]
  simp

/-! ### Headers within the host's duties -/

/-- Below 256 the header is the exact offset. -/
theorem State.packetAtOff_header {s : State} (h : s.txOff ≤ 255) : s.packetAtOff.head?.map BitVec.toNat = some s.txOff := by
  rw [State.packetAtOff_head?, Option.map_some, hdrEnc_toNat, Nat.mod_eq_of_lt (by omega)]

theorem Inv.txOff_le {s : State} (h : Inv s) (hs : s.txState = .sending) : s.txOff ≤ s.txFlen :=
  (Nat.le_add_right _ _).trans (h.fragment_le hs)

/-- What `SafeSendingUsesExactHeaders` says of the packet sent from `u`. -/
theorem Inv.sends_exact_header {u : State} (h : Inv u) (hs : u.txState = .sending) (hflen : u.txFlen ≤ 255) :
    ∃ t pkt, u.sendPkt = .next t ∧ t.outputs = u.outputs ++ [.pktOut pkt] ∧ t.txState = .sending ∧
      pkt.head?.map BitVec.toNat = some t.txOff :=
  ⟨_, _, h.sendPkt_eq hs, rfl, hs, State.packetAtOff_header ((h.txOff_le hs).trans hflen)⟩

/-- Settles O31: an offset lies within its frame, so a frame of at most 255 bytes has no header cut off. -/
theorem safeSendingUsesExactHeaders : Obligations.SafeSendingUsesExactHeaders := by
  intro i s hinv htx hsafe hflen
  cases i with
  | txStart p =>
    simp only [safeEvent, Bool.and_eq_true, beq_iff_eq, decide_eq_true_eq] at hsafe
    obtain ⟨hs, hlen, hsup, hcap⟩ := hsafe
    have hp : p ≠ [] := List.length_pos_iff.1 hlen
    obtain ⟨t, pkt, hsend, houts, hstate, hhead⟩ := (hinv.loadFrame hp hcap).sends_exact_header rfl hsup
    exact ⟨t, .pktOut pkt, (execTxStart_accepted hs hp hcap).trans hsend, houts, .inr ⟨pkt, rfl, hstate, hhead⟩⟩
  | txAck =>
    have hs : s.txState = .sending := beq_iff_eq.1 hsafe
    by_cases hoff : s.txOff = 0
    · exact ⟨_, .txDone, execTxAck_head hs hoff, rfl, .inl ⟨rfl, rfl, rfl⟩⟩
    · obtain ⟨t, pkt, hsend, houts, hstate, hhead⟩ := (hinv.advance hs).sends_exact_header hs hflen
      exact ⟨t, .pktOut pkt, (execTxAck_more hs hoff).trans hsend, houts, .inr ⟨pkt, rfl, hstate, hhead⟩⟩
  | _ => cases htx

/-! ### What is emitted, by which event -/

/-- An input event that emits an output: the event, the output, and the state after it. -/
inductive Emits : Instr → State → OutEvent → State → Prop
  | busy {p s} : s.txState = .sending → Emits (.txStart p) s (.refused .busy) (s.refuse .busy)
  | tooLong {p s} : s.txState = .idle → p ≠ [] → s.params.txCap < p.length + 1 →
      Emits (.txStart p) s (.refused .tooLong) (s.refuse .tooLong)
  | first {p s} : s.txState = .idle → p ≠ [] → p.length + 1 ≤ s.params.txCap →
      Emits (.txStart p) s (.pktOut (s.loadFrame p).packetAtOff) ((s.loadFrame p).emit (.pktOut (s.loadFrame p).packetAtOff))
  | done {s} : s.txState = .sending → s.txOff = 0 → Emits .txAck s .txDone (s.finishTx.emit .txDone)
  | next {s} : s.txState = .sending → s.txOff ≠ 0 →
      Emits .txAck s (.pktOut s.advance.packetAtOff) (s.advance.emit (.pktOut s.advance.packetAtOff))
  | frame {b s t} (out : Bytes) (ok : Bool) : Emits (.rxPacket b) s (.frameOut out ok) t

theorem InputCase.emits {i : Instr} {s t : State} {e : OutEvent} (h : InputCase i s t) (he : t.outputs = s.outputs ++ [e]) :
    Emits i s e t := by
  have silent : s.outputs ≠ s.outputs ++ [e] := by simp
  have emitted {x : OutEvent} (hx : s.outputs ++ [x] = s.outputs ++ [e]) : x = e := by simpa using hx
  cases h with
  | empty | ackIdle | rxEmpty | rxNon | rxZero | rxClear | abort | reset => exact absurd he silent
  | busy hs => rw [← emitted he]; exact .busy hs
  | long hs hp hcap => rw [← emitted he]; exact .tooLong hs hp hcap
  | start hs hp hcap ht => subst ht; rw [← emitted he]; exact .first hs hp hcap
  | ackDone hs hoff => rw [← emitted he]; exact .done hs hoff
  | ackNext hs hoff ht => subst ht; rw [← emitted he]; exact .next hs hoff
  | rxFin => rw [← emitted he]; exact .frame _ _

/-- Settles O33: the only case of `Emits` with `TX_DONE`. -/
theorem onlyHeadAckEmitsTxDone : Obligations.OnlyHeadAckEmitsTxDone := by
  intro i s t hi h
  refine ⟨fun he => ?_, ?_⟩
  · cases (exec_inputCase hi h).emits he with
    | done hs hoff => exact ⟨rfl, hs, hoff⟩
  · rintro ⟨rfl, hs, hoff⟩
    rw [next_inj (h.symm.trans (execTxAck_head hs hoff)).symm]
    rfl

/-- Settles O50: the two cases of `Emits` with a refusal. -/
theorem onlyTxStartIsRefused : Obligations.OnlyTxStartIsRefused := by
  intro i s t r hi h he
  cases (exec_inputCase hi h).emits he with
  | busy hs => exact ⟨rfl, _, rfl, .inl ⟨rfl, hs⟩⟩
  | tooLong hs hp hcap => exact ⟨rfl, _, rfl, .inr ⟨rfl, hs, hp, hcap⟩⟩

/-- What `EmittedPacketIsTheOneAtTxOff` says of the packet at `tx_off`. -/
theorem Inv.packetAtOff_spec {s : State} (h : Inv s) (hs : s.txState = .sending) :
    2 ≤ s.packetAtOff.length ∧ s.packetAtOff.length ≤ s.params.ps + 1 ∧
      s.txOff + (s.packetAtOff.length - 1) ≤ s.txFlen ∧
      ∀ k, k + 1 < s.packetAtOff.length → s.packetAtOff[k + 1]? = some (s.txBuf.read (s.txOff + k)) := by
  refine ⟨?_, ?_, ?_, fun k hk => State.packetAtOff_get hk⟩ <;> rw [State.packetAtOff_length]
  · exact Nat.succ_le_succ (fragLenAt_pos h.params.1 _ _)
  · exact Nat.succ_le_succ (fragLenAt_le h.params.1 _ _)
  · exact h.fragment_le hs

/-- Settles O34: the two cases of `Emits` with a packet, each at the `tx_off` just written. -/
theorem emittedPacketIsTheOneAtTxOff : Obligations.EmittedPacketIsTheOneAtTxOff := by
  intro i s t pkt hinv hi h he
  cases (exec_inputCase hi h).emits he with
  | first hs hp hcap =>
    obtain ⟨hmin, hmax, hend, hbytes⟩ := (hinv.loadFrame hp hcap).packetAtOff_spec rfl
    exact ⟨hmin, hmax, rfl, rfl, hend, hbytes⟩
  | next hs hoff =>
    obtain ⟨hmin, hmax, hend, hbytes⟩ := (hinv.advance hs).packetAtOff_spec hs
    exact ⟨hmin, hmax, hs, rfl, hend, hbytes⟩

/-! ### The loaded frame -/

theorem InputCase.frame_fixed {i : Instr} {s t : State} (h : InputCase i s t) (hs : s.txState = .sending) :
    t.txBuf = s.txBuf ∧ (t.txState = .sending → t.txFlen = s.txFlen) := by
  cases h with
  | empty hidle | long hidle | start hidle | ackIdle hidle => rw [hs] at hidle; cases hidle
  | ackDone | abort | reset => exact ⟨rfl, nofun⟩
  | ackNext _ _ ht => subst ht; exact ⟨rfl, fun _ => rfl⟩
  | busy | rxEmpty | rxNon | rxZero | rxFin | rxClear => exact ⟨rfl, fun _ => rfl⟩

/-- Settles O32: only an accepted `TX_START` writes `tx_buf`, and it is accepted while idle only. -/
theorem frameIsFixedWhileSending : Obligations.FrameIsFixedWhileSending := by
  intro i s t hs h
  cases exec_rowCase h with
  | pure | output | pktNonfinal => exact ⟨rfl, fun _ => rfl⟩
  | input _ hc | pktFinal hc => exact hc.frame_fixed hs

/-! ### The bytes of `tx_buf` above the frame -/

/-- The same state but for `tx_buf`. -/
def State.withTxBuf (s : State) (m : Memory) : State := { s with txBuf := m }

/-- Both outcomes are next states, and these differ only in bytes of `tx_buf` at or above `tx_flen`. -/
def DifferInStaleBytes (o o' : Host.Outcome State Fault Refusal) : Prop :=
  ∃ (t : State) (m : Memory), o = .next t ∧ o' = .next (t.withTxBuf m) ∧ ∀ a, a < t.txFlen → m.read a = t.txBuf.read a

theorem DifferInStaleBytes.next {t : State} {m : Memory} (h : ∀ a, a < t.txFlen → m.read a = t.txBuf.read a) :
    DifferInStaleBytes (.next t) (.next (t.withTxBuf m)) := ⟨t, m, rfl, rfl, h⟩

section
variable {s : State} {m : Memory} (hinv : Inv s) (hm : ∀ a, a < s.txFlen → m.read a = s.txBuf.read a)
include hinv hm

/-- The packet sent reads bytes of the frame only. -/
theorem differInStaleBytes_sendPkt (hs : s.txState = .sending) :
    DifferInStaleBytes s.sendPkt (s.withTxBuf m).sendPkt := by
  have hend := hinv.fragment_le hs
  have hcap := hend.trans (hinv.flen hs).2
  have hsame : (s.withTxBuf m).packetAtOff = s.packetAtOff :=
    congrArg (hdrEnc s.txOff :: ·) (Memory.readBytes_congr fun i hi => hm _ ((Nat.add_lt_add_left hi _).trans_le hend))
  have hstale : (s.withTxBuf m).sendPkt = .next ((s.withTxBuf m).emit (.pktOut (s.withTxBuf m).packetAtOff)) :=
    State.sendPkt_eq hcap
  rw [hinv.sendPkt_eq hs, hstale, hsame]
  exact .next (t := s.emit _) hm

/-- Completion reads RXB only. -/
theorem differInStaleBytes_complete : DifferInStaleBytes s.complete (s.withTxBuf m).complete := by
  by_cases hzero : s.rxLen = 0
  · rw [State.complete_zero hzero, State.complete_zero (s := s.withTxBuf m) hzero]
    exact .next (t := s.clearRx) hm
  · rw [State.complete_pos hzero hinv.rxLen, State.complete_pos (s := s.withTxBuf m) hzero hinv.rxLen]
    exact .next (t := (s.emit _).clearRx) hm

/-- `TX_START` writes all of the frame it loads, whatever `tx_buf` held. -/
theorem differInStaleBytes_execTxStart (hw : m.wf s.params.txCap = true) (p : Bytes) :
    DifferInStaleBytes (execTxStart p s) (execTxStart p (s.withTxBuf m)) := by
  by_cases hs : s.txState = .sending
  · rw [execTxStart_busy p hs, execTxStart_busy (s := s.withTxBuf m) p hs]
    exact .next (t := s.refuse .busy) hm
  have hidle := TxState.idle_of_ne_sending hs
  by_cases hp : p = []
  · subst hp
    rw [execTxStart_nil hidle, execTxStart_nil (s := s.withTxBuf m) hidle]
    exact .next hm
  by_cases hcap : p.length + 1 ≤ s.params.txCap
  · rw [execTxStart_accepted hidle hp hcap, execTxStart_accepted (s := s.withTxBuf m) hidle hp hcap]
    obtain ⟨-, hread, -⟩ := State.loadFrame_read hinv.txMem hcap
    obtain ⟨-, hread', -⟩ := State.loadFrame_read (s := s.withTxBuf m) hw hcap
    refine differInStaleBytes_sendPkt (hinv.loadFrame hp hcap) (fun a ha => ?_) rfl
    have hF : a < p.length + 1 := ha
    exact (hread' a).trans (by rw [hread, if_pos hF, if_pos hF])
  · have hlong := Nat.lt_of_not_le hcap
    rw [execTxStart_tooLong hidle hp hlong, execTxStart_tooLong (s := s.withTxBuf m) hidle hp hlong]
    exact .next (t := s.refuse .tooLong) hm

theorem differInStaleBytes_execTxAck : DifferInStaleBytes (execTxAck s) (execTxAck (s.withTxBuf m)) := by
  by_cases hidle : s.txState = .idle
  · rw [execTxAck_idle hidle, execTxAck_idle (s := s.withTxBuf m) hidle]
    exact .next hm
  have hs := TxState.sending_of_ne_idle hidle
  by_cases hoff : s.txOff = 0
  · rw [execTxAck_head hs hoff, execTxAck_head (s := s.withTxBuf m) hs hoff]
    exact .next (t := s.finishTx.emit .txDone) fun a ha => absurd ha (Nat.not_lt_zero a)
  · rw [execTxAck_more hs hoff, execTxAck_more (s := s.withTxBuf m) hs hoff]
    exact differInStaleBytes_sendPkt (hinv.advance hs) hm hs

theorem differInStaleBytes_execRxPacket (b : Bytes) :
    DifferInStaleBytes (execRxPacket b s) (execRxPacket b (s.withTxBuf m)) := by
  cases b with
  | nil => exact .next hm
  | cons o d =>
    by_cases hfinal : o = 0x00
    · rw [hfinal, execRxPacket_final, execRxPacket_final]
      exact differInStaleBytes_complete (hinv.takeFragment 0 d) hm
    · rw [execRxPacket_nonfinal d _ hfinal, execRxPacket_nonfinal d _ hfinal]
      exact .next (t := s.takeFragment o.toNat d) hm

end

/-- Settles O35, row by row: the rows that read `tx_buf` read the frame in it, the others leave it alone. -/
theorem staleTxBufferIsNeverObserved : Obligations.StaleTxBufferIsNeverObserved := by
  intro i s m hinv hw hm
  show DifferInStaleBytes (exec i s) (exec i (s.withTxBuf m))
  cases i with
  | frame | cks8 | cks8Gen | cks8Chk | hdrEnc | hdrDec | frag => exact .next (t := s.answer _) hm
  | pktOut | txDone | frameOut | refused => exact .next (t := s.emit _) hm
  | rxClear => exact .next (t := s.clearRx) hm
  | abort | reset => exact .next (t := s.clearAll) (m := m) fun a ha => absurd ha (Nat.not_lt_zero a)
  | pktNonfinal o d => exact .next (t := s.takeFragment o.toNat d) hm
  | pktFinal d => exact differInStaleBytes_complete (hinv.takeFragment 0 d) hm
  | rxPacket b => exact differInStaleBytes_execRxPacket hinv hm b
  | txStart p => exact differInStaleBytes_execTxStart hinv hm hw p
  | txAck => exact differInStaleBytes_execTxAck hinv hm

end Sys2Proof.Machine

/-! PROOFS. The family other: the receive side (43_reassembler.md R126 to R138, 42_fragmenter.md R115 (c), 20_memory.md R44). -/

namespace Sys2Proof.Machine

/-! ### Non-final packets -/

/-- Two states that agree but for the receive buffer and its length are equal once these are. -/
theorem State.eq_of_rx {s t : State} (hrest : { s with rxBuf := t.rxBuf, rxLen := t.rxLen } = t)
    (hbuf : s.rxBuf = t.rxBuf) (hlen : s.rxLen = t.rxLen) : s = t := by
  rw [← hrest, ← hbuf, ← hlen]

/-- Every byte of RXB once a fragment has been taken in (R127). -/
theorem Inv.read_takeFragment {s : State} (h : Inv s) (pos : Nat) (d : Bytes) (a : Nat) :
    (s.takeFragment pos d).rxBuf.read a = placedByte s pos d a := (Memory.place_spec h.rxMem pos d).2 a

/-- Settles O37: the state after is `takeFragment`, the bytes are `Inv.read_takeFragment`. -/
theorem nonfinalFragmentIsPlaced : Obligations.NonfinalFragmentIsPlaced :=
  fun o d s hinv ho => ⟨s.takeFragment o.toNat d, rfl, execRxPacket_nonfinal d s ho, rfl, hinv.read_takeFragment o.toNat d⟩

/-- Settles O38: the length is the one `takeFragment` writes. -/
theorem nonfinalFragmentRaisesLength : Obligations.NonfinalFragmentRaisesLength :=
  fun _ d s ho => ⟨_, rfl, execRxPacket_nonfinal d s ho⟩

/-- Settles O39: the first branch of `execRxPacket`. -/
theorem emptyNotificationIsIgnored : Obligations.EmptyNotificationIsIgnored := fun _ => rfl

/-- Taking the same fragment in again changes nothing. -/
theorem Inv.takeFragment_twice {s : State} (h : Inv s) (pos : Nat) (d : Bytes) :
    (s.takeFragment pos d).takeFragment pos d = s.takeFragment pos d := by
  have h1 := h.takeFragment pos d
  refine State.eq_of_rx rfl (Memory.ext (h1.takeFragment pos d).rxMem h1.rxMem fun a => ?_) ?_
  · rw [h1.read_takeFragment, placedByte]
    split_ifs with hin
    · rw [h.read_takeFragment]
      exact (if_pos hin).symm
    · rfl
  · simp only [State.takeFragment_rxLen, State.takeFragment_params, max_assoc, max_self]

/-- Settles O44: the same fragment is taken in twice. -/
theorem duplicateNonfinalHasNoEffect : Obligations.DuplicateNonfinalHasNoEffect := by
  intro o d s t hinv ho h
  rw [next_inj (h.symm.trans (execRxPacket_nonfinal d s ho)).symm]
  show execRxPacket (o :: d) _ = _
  rw [execRxPacket_nonfinal d _ ho, hinv.takeFragment_twice]

/-- Fragments that do not overlap can be taken in in either order. -/
theorem Inv.takeFragment_comm {s : State} (h : Inv s) {pos pos' : Nat} {d d' : Bytes} (hle : pos + d.length ≤ pos') :
    (s.takeFragment pos' d').takeFragment pos d = (s.takeFragment pos d).takeFragment pos' d' := by
  have h1 := h.takeFragment pos d
  have h2 := h.takeFragment pos' d'
  refine State.eq_of_rx rfl (Memory.ext (h2.takeFragment pos d).rxMem (h1.takeFragment pos' d').rxMem fun a => ?_) ?_
  · simp only [h1.read_takeFragment, h2.read_takeFragment, h.read_takeFragment, placedByte, State.takeFragment_params]
    by_cases hlow : pos ≤ a ∧ a < pos + d.length ∧ a < s.params.rxCap
    · rw [if_pos hlow, if_neg (by omega), if_pos hlow]
    · rw [if_neg hlow, if_neg hlow]
  · simp only [State.takeFragment_rxLen, State.takeFragment_params]
    exact max_right_comm _ _ _

/-- Settles O45: both runs take both fragments in, one below the other. -/
theorem nonfinalPacketsCommute : Obligations.NonfinalPacketsCommute := by
  intro o q d e s hinv ho hq hle
  refine ⟨(s.takeFragment o.toNat d).takeFragment q.toNat e, ?_, ?_⟩
  · rw [execAll_cons (i := .rxPacket (o :: d)) (execRxPacket_nonfinal d s ho),
      execAll_cons (i := .rxPacket (q :: e)) (execRxPacket_nonfinal e _ hq), execAll]
  · rw [execAll_cons (i := .rxPacket (q :: e)) (execRxPacket_nonfinal e s hq),
      execAll_cons (i := .rxPacket (o :: d)) (execRxPacket_nonfinal d _ ho), execAll, hinv.takeFragment_comm hle]

/-! ### Bytes above `RX_CAP` -/

/-- A fragment is taken in as its part below `RX_CAP`, in any state (20_memory.md R44). -/
theorem State.takeFragment_take (s : State) (pos : Nat) (d : Bytes) :
    s.takeFragment pos (d.take (s.params.rxCap - pos)) = s.takeFragment pos d := by
  have hlen : min (pos + (d.take (s.params.rxCap - pos)).length) s.params.rxCap = min (pos + d.length) s.params.rxCap := by
    rw [List.length_take]; omega
  rw [State.takeFragment, State.takeFragment, Memory.place_take, hlen]

/-- Settles O56: the clamp by `takeFragment_take`; above the capacity both buffers of a canonical form read the same. -/
theorem outOfRangeReceiveBytesHaveNoEffect : Obligations.OutOfRangeReceiveBytesHaveNoEffect := by
  intro h d s
  refine ⟨?_, fun hinv => ?_, fun hdef hlen i hi => ?_⟩
  · show execRxPacket (h :: d) s = execRxPacket (h :: d.take (s.params.rxCap - h.toNat)) s
    by_cases h0 : h = 0x00
    · subst h0
      have hclamp : s.takeFragment 0 (d.take (s.params.rxCap - (0x00 : Byte).toNat)) = s.takeFragment 0 d := s.takeFragment_take 0 d
      rw [execRxPacket_final, execRxPacket_final, hclamp]
    · rw [execRxPacket_nonfinal _ s h0, execRxPacket_nonfinal _ s h0, State.takeFragment_take]
  · obtain ⟨t, ht, htinv⟩ := blockNeverFaults (.rxPacket (h :: d)) s hinv
    have hparams : t.params = s.params := (parametersNeverChange _ _ _ ht).1
    refine ⟨t, ht, hparams ▸ htinv.rxLen, fun a ha => ?_⟩
    rw [Memory.read_above hinv.rxMem ha, Memory.read_above htinv.rxMem (hparams ▸ ha)]
  · have hh := h.isLt
    simp only [hdef, Params.default, Params.pktMax] at hlen ⊢
    omega

/-! ### A final packet -/

/-- The frame that a final packet with the fragment `d` completes: its bytes as placed, `rx_len` of them (R129). -/
def receivedFrame (s : State) (d : Bytes) : Bytes := (List.range (lenAfter s 0 d.length)).map (placedByte s 0 d)

theorem Inv.readBytes_takeFragment {s : State} (h : Inv s) (d : Bytes) :
    (s.takeFragment 0 d).rxBuf.readBytes 0 (s.takeFragment 0 d).rxLen = receivedFrame s d := by
  rw [Memory.readBytes_eq_map]
  refine List.map_congr_left fun a _ => ?_
  rw [h.read_takeFragment, Nat.zero_add]

theorem execPktFinal_of_zero {s : State} {d : Bytes} (hT : lenAfter s 0 d.length = 0) :
    execPktFinal d s = .next { s with rxLen := 0, rxBuf := [] } :=
  State.complete_zero (s := s.takeFragment 0 d) hT

theorem Inv.execPktFinal_of_pos {s : State} (h : Inv s) {d : Bytes} (hT : 1 ≤ lenAfter s 0 d.length) :
    execPktFinal d s
      = .next { s with rxLen := 0, rxBuf := [], outputs := s.outputs ++ [deliver (receivedFrame s d)] } := by
  have hpos : (s.takeFragment 0 d).rxLen ≠ 0 := Nat.pos_iff_ne_zero.1 hT
  rw [execPktFinal, State.complete_pos hpos (h.takeFragment 0 d).rxLen, h.readBytes_takeFragment]
  rfl

theorem receivedFrame_length (s : State) (d : Bytes) : (receivedFrame s d).length = lenAfter s 0 d.length := by
  simp [receivedFrame]

/-- A received frame of at least one byte is its payload and then its last byte. -/
theorem receivedFrame_eq_append {s : State} {d : Bytes} (hT : 1 ≤ lenAfter s 0 d.length) :
    receivedFrame s d = (List.range (lenAfter s 0 d.length - 1)).map (placedByte s 0 d) ++
      [placedByte s 0 d (lenAfter s 0 d.length - 1)] := by
  obtain ⟨n, hn⟩ : ∃ n, lenAfter s 0 d.length = n + 1 := ⟨_, (Nat.sub_add_cancel hT).symm⟩
  rw [receivedFrame, hn, Nat.add_sub_cancel, List.range_succ, List.map_append, List.map_singleton]

theorem receivedFrame_dropLast {s : State} {d : Bytes} (hT : 1 ≤ lenAfter s 0 d.length) :
    (receivedFrame s d).dropLast = (List.range (lenAfter s 0 d.length - 1)).map (placedByte s 0 d) := by
  rw [receivedFrame_eq_append hT, List.dropLast_concat]

theorem receivedFrame_dropLast_get {s : State} {d : Bytes} {a : Nat} (hT : 1 ≤ lenAfter s 0 d.length)
    (ha : a < lenAfter s 0 d.length - 1) : (receivedFrame s d).dropLast[a]? = some (placedByte s 0 d a) := by
  rw [receivedFrame_dropLast hT, List.getElem?_map, List.getElem?_range ha, Option.map_some]

/-- Settles O40: what is delivered for the received frame, by `deliver_eq`; its verdict is the validator's. -/
theorem finalPacketCompletesFrame : Obligations.FinalPacketCompletesFrame := by
  intro d s hinv
  by_cases hT : lenAfter s 0 d.length = 0
  · exact ⟨_, execPktFinal_of_zero hT, execPktFinal_of_zero hT, fun _ => rfl, fun hpos => by omega⟩
  · have hT : 1 ≤ lenAfter s 0 d.length := Nat.pos_iff_ne_zero.2 hT
    obtain ⟨out, hout, hlen, htrue, -⟩ := deliver_eq (receivedFrame s d)
    refine ⟨_, hinv.execPktFinal_of_pos hT, hinv.execPktFinal_of_pos hT, fun hzero => by omega, fun _ => ?_⟩
    refine ⟨out, cks8Chk (receivedFrame s d), by rw [hout], by rw [hlen, receivedFrame_length], ?_, fun hok a ha => ?_⟩
    · rw [receivedFrame_eq_append hT, cks8Chk_append_iff, List.map_map]
      rfl
    · rw [htrue hok, receivedFrame_dropLast_get hT ha]

/-! ### The in-band error code -/

theorem markMismatch_eq {x : Bytes} (h : 2 ≤ x.length) : markMismatch x = x.take (x.length - 2) ++ [0x66, 0x02] := if_pos h

theorem markMismatch_drop {x : Bytes} (h : 2 ≤ x.length) : (markMismatch x).drop (x.length - 2) = [0x66, 0x02] := by
  rw [markMismatch_eq h, List.drop_append_of_le_length (by rw [List.length_take]; omega)]
  simp

theorem markMismatch_getElem? {x : Bytes} {a : Nat} (h : a + 2 < x.length) : (markMismatch x)[a]? = x[a]? := by
  rw [markMismatch_eq (by omega), List.getElem?_append_left (by rw [List.length_take]; omega), List.getElem?_take_of_lt (by omega)]

theorem markMismatch_of_length_one {x : Bytes} (h : x.length = 1) : markMismatch x = [0x02] := by
  rw [markMismatch, if_neg (by omega), if_pos h]
  rfl

/-- Settles O41: the delivered bytes are the received payload, marked. -/
theorem mismatchMarksLastTwoBytes : Obligations.MismatchMarksLastTwoBytes := by
  intro d s t out hinv h he
  by_cases hT : lenAfter s 0 d.length = 0
  · rw [next_inj (h.symm.trans (execPktFinal_of_zero hT)).symm] at he
    exact absurd he (by simp)
  · have hT : 1 ≤ lenAfter s 0 d.length := Nat.pos_iff_ne_zero.2 hT
    obtain ⟨out', hout, hlen, -, hfalse⟩ := deliver_eq (receivedFrame s d)
    rw [next_inj (h.symm.trans (hinv.execPktFinal_of_pos hT)).symm, hout] at he
    obtain ⟨rfl, hbad⟩ : out' = out ∧ cks8Chk (receivedFrame s d) = false := by simpa using he
    rw [receivedFrame_length] at hlen
    have hmark := hfalse hbad
    have hsame : (receivedFrame s d).dropLast.length = out'.length := by rw [hmark, markMismatch_length]
    refine ⟨hlen, fun h2 => ⟨?_, fun a ha => ?_⟩, fun h1 => ?_⟩
    · rw [← hsame, hmark, markMismatch_drop (by omega)]
    · rw [hmark, markMismatch_getElem? (by omega), receivedFrame_dropLast_get hT (by omega)]
    · rw [hmark, markMismatch_of_length_one (by omega)]

end Sys2Proof.Machine

/-! PROOFS. The family other: a stream of packets received in order (43_reassembler.md R136, R138, 42_fragmenter.md R115 (c)). -/

namespace Sys2Proof.Machine

/-! ### The packets of a frame into a cleared reassembler -/

/-- RXB holds the bytes of the frame `g` from `lo` on, and `rx_len` is the frame's length, or 0 if that is no byte at all. -/
structure HoldsFrom (s : State) (g : Bytes) (lo : Nat) : Prop where
  inv : Inv s
  cap : g.length ≤ s.params.rxCap
  bytes : ∀ a, lo ≤ a → a < g.length → s.rxBuf.read a = g.getD a 0x00
  len : s.rxLen = if lo < g.length then g.length else 0

theorem Inv.holdsFrom_end {s : State} (h : Inv s) (hclear : s.rxLen = 0) {g : Bytes} (hcap : g.length ≤ s.params.rxCap) :
    HoldsFrom s g g.length where
  inv := h
  cap := hcap
  bytes := fun _ hlo hhi => absurd hhi (Nat.not_lt.2 hlo)
  len := by rw [hclear, if_neg (Nat.lt_irrefl _)]

/-- The fragment just below what RXB holds extends it downwards. -/
theorem HoldsFrom.takeFragment {s : State} {g : Bytes} {pos n lo : Nat} (h : HoldsFrom s g lo) (hn : 1 ≤ n) (hlo : pos + n = lo)
    (hend : lo ≤ g.length) : HoldsFrom (s.takeFragment pos ((g.drop pos).take n)) g pos where
  inv := h.inv.takeFragment _ _
  cap := h.cap
  bytes := fun a hpos ha => by
    have hcap := h.cap
    rw [h.inv.read_takeFragment, placedByte, List.length_take, List.length_drop]
    split_ifs with hin
    · rw [List.getD_eq_getElem?_getD, List.getD_eq_getElem?_getD, List.getElem?_take_of_lt (by omega), List.getElem?_drop,
        Nat.add_sub_cancel' hpos]
    · exact h.bytes a (by omega) ha
  len := by
    have hcap := h.cap
    rw [State.takeFragment_rxLen, h.len, List.length_take, List.length_drop, if_pos (by omega : pos < g.length)]
    split_ifs <;> omega

/-- Once RXB holds the whole frame, completion delivers it. -/
theorem HoldsFrom.complete {s : State} {g : Bytes} (h : HoldsFrom s g 0) (hg : 1 ≤ g.length) :
    s.complete = .next (s.emit (deliver g)).clearRx := by
  have hlen : s.rxLen = g.length := by rw [h.len, if_pos (by omega)]
  have hread : s.rxBuf.readBytes 0 g.length = g := Memory.readBytes_eq fun i hi => by
    rw [Nat.zero_add, h.bytes i (Nat.zero_le i) hi, List.getD_eq_getElem _ _ hi]
  rw [State.complete_pos (by omega) h.inv.rxLen, hlen, hread]

/-- The headers of a frame of at most `255 + PS` bytes are its exact offsets, 0 for the last packet only (R115 (b)). -/
theorem hdrEnc_fragOff_exact {ps F k : Nat} (hps : 1 ≤ ps) (hF : F ≤ 255 + ps) (hk : k + 1 < packetCount ps F) (h1 : 1 ≤ F) :
    (hdrEnc (fragOff ps F k)).toNat = fragOff ps F k ∧ hdrEnc (fragOff ps F k) ≠ 0 := by
  have hoff := fragOff_eq_sub hps h1 (Nat.lt_of_succ_lt hk)
  have hne : fragOff ps F k ≠ 0 := by rw [Ne, fragOff_eq_zero hps (Nat.lt_of_succ_lt hk)]; omega
  have hle : fragOff ps F k ≤ 255 := by rw [Nat.mul_succ] at hoff; omega
  refine ⟨by rw [hdrEnc_toNat, Nat.mod_eq_of_lt (by omega)], ?_⟩
  rw [Ne, hdrEnc_eq_zero, Nat.mod_eq_of_lt (by omega)]
  exact hne

section
variable {ps : Nat} {g : Bytes} {s : State} {k : Nat} (hps : 1 ≤ ps) (hg : 1 ≤ g.length) (h : HoldsFrom s g (g.length - ps * k))
include hps hg h

/-- The `k`-th packet's fragment extends what RXB holds after the `k` packets before it. -/
theorem HoldsFrom.takeFragment_packet (hk : k < packetCount ps g.length) :
    HoldsFrom (s.takeFragment (fragOff ps g.length k) (framePacket ps g k).tail) g (fragOff ps g.length k) := by
  have hend := fragOff_add_fragLen hg hk
  exact h.takeFragment (fragLen_pos hps) (by omega) (Nat.sub_le _ _)

/-- A packet but the last is stored at its offset. -/
theorem HoldsFrom.receive_nonfinal (hF : g.length ≤ 255 + ps) (hk : k + 1 < packetCount ps g.length) :
    exec (.rxPacket (framePacket ps g k)) s = .next (s.takeFragment (fragOff ps g.length k) (framePacket ps g k).tail) ∧
      HoldsFrom (s.takeFragment (fragOff ps g.length k) (framePacket ps g k).tail) g (g.length - ps * (k + 1)) := by
  obtain ⟨hexact, hne⟩ := hdrEnc_fragOff_exact hps hF hk hg
  refine ⟨(execRxPacket_nonfinal (framePacket ps g k).tail s hne).trans (by rw [hexact]), ?_⟩
  have hnext := h.takeFragment_packet hps hg (by omega)
  rwa [← fragOff_eq_sub hps hg (by omega)]

/-- The last packet completes the frame. -/
theorem HoldsFrom.receive_final (hk : k + 1 = packetCount ps g.length) :
    exec (.rxPacket (framePacket ps g k)) s = .next (s.emit (deliver g)).clearRx := by
  have hnext := h.takeFragment_packet hps hg (by omega)
  have hzero : fragOff ps g.length k = 0 := (fragOff_eq_zero hps (by omega)).2 hk
  have hpacket : framePacket ps g k = 0x00 :: (framePacket ps g k).tail := by rw [framePacket, hzero]; rfl
  rw [hzero] at hnext
  rw [hpacket]
  exact hnext.complete hg

end

/-- The packets from the `k`-th on, received after the `k` before them, deliver the frame and clear the reassembler. -/
theorem HoldsFrom.receive_rest {ps : Nat} {g : Bytes} (hps : 1 ≤ ps) (hg : 1 ≤ g.length) (hF : g.length ≤ 255 + ps) (m : Nat)
    {s : State} {k : Nat} (hm : k + 1 + m = packetCount ps g.length) (h : HoldsFrom s g (g.length - ps * k)) :
    execAll (notifications ((framePackets ps g).drop k)) s = .next (s.emit (deliver g)).clearRx := by
  rw [framePackets_drop (by omega), notifications, List.map_cons]
  induction m generalizing s k with
  | zero =>
    rw [execAll_cons (h.receive_final hps hg hm), List.drop_eq_nil_of_le (by rw [framePackets_length]; omega), List.map_nil,
      execAll]
  | succ m ih =>
    obtain ⟨hstep, hnext⟩ := h.receive_nonfinal hps hg hF (by omega)
    rw [execAll_cons hstep, framePackets_drop (by omega), List.map_cons]
    exact ih (by omega) hnext

theorem Inv.rxBuf_eq_nil {s : State} (h : Inv s) (hclear : s.rxLen = 0) : s.rxBuf = [] :=
  Memory.ext h.rxMem (Memory.wf_nil _) fun a => h.rxAbove a (by omega)

/-- A cleared reassembler is cleared to itself. -/
theorem Inv.clearRx_eq {s : State} (h : Inv s) (hclear : s.rxLen = 0) : s.clearRx = s :=
  State.eq_of_rx rfl (h.rxBuf_eq_nil hclear).symm hclear.symm

/-- The packets of a frame of at most `255 + PS` bytes, received in order by a cleared reassembler, deliver that frame, valid or
not, and leave everything else as it was. -/
theorem Inv.receive_framePackets {s : State} (h : Inv s) (hclear : s.rxLen = 0) {g : Bytes} (hg : 1 ≤ g.length)
    (hF : g.length ≤ 255 + s.params.ps) (hcap : g.length ≤ s.params.rxCap) :
    execAll (notifications (framePackets s.params.ps g)) s = .next (s.emit (deliver g)) := by
  have hn := packetCount_pos s.params.ps g.length
  have hstart : HoldsFrom s g (g.length - s.params.ps * 0) := h.holdsFrom_end hclear hcap
  have hrun := hstart.receive_rest h.params.1 hg hF (packetCount s.params.ps g.length - 1) (by omega)
  rwa [List.drop_zero, (h.emit _).clearRx_eq hclear] at hrun

/-- Settles O42: the frame delivered is a generated one, so its verdict is true and its payload is the one sent. -/
theorem fragThenReassembleGivesPayload : Obligations.FragThenReassembleGivesPayload := by
  intro p s hinv hclear hlen hF hcap
  have hdel : deliver (cks8Gen p) = .frameOut p true := by simp [deliver]
  rw [frag_cons (List.length_pos_iff.1 hlen), hinv.receive_framePackets hclear (by simp) (by simpa) (by simpa), hdel]
  rfl

/-! ### One byte changed on the way -/

/-- The fragments of two packets do not overlap: the earlier one sent lies above. -/
theorem fragment_end_le {ps F i k : Nat} (hps : 1 ≤ ps) (h1 : 1 ≤ F) (hik : i < k) (hk : k < packetCount ps F) :
    fragOff ps F k + fragLen ps F k ≤ fragOff ps F i := by
  have hend := fragOff_add_fragLen h1 hk
  have hmul : ps * (i + 1) ≤ ps * k := Nat.mul_le_mul_left ps hik
  rw [fragOff_eq_sub hps h1 (hik.trans hk)]
  omega

/-- A byte of the `k`-th fragment changed on the way is that byte of the frame changed, and no other packet has it. -/
theorem framePacket_set {ps : Nat} {f : Bytes} {k j : Nat} (b : Byte) (hps : 1 ≤ ps) (hf : 1 ≤ f.length)
    (hk : k < packetCount ps f.length) (hj : j < fragLen ps f.length k) {i : Nat} (hi : i < packetCount ps f.length) :
    framePacket ps (f.set (fragOff ps f.length k + j) b) i =
      if i = k then (framePacket ps f k).set (j + 1) b else framePacket ps f i := by
  rw [framePacket, List.length_set, List.drop_set]
  rcases Nat.lt_trichotomy i k with hlt | rfl | hgt
  · have hsep := fragment_end_le hps hf hlt hk
    rw [if_pos (by omega), if_neg (by omega)]
    rfl
  · rw [if_neg (by omega), if_pos rfl, Nat.add_sub_cancel_left, List.take_set]
    rfl
  · have hsep := fragment_end_le hps hf hgt hi
    rw [if_neg (by omega), if_neg (by omega), List.take_set, List.set_eq_of_length_le (by rw [List.length_take]; omega)]
    rfl

theorem framePackets_set {ps : Nat} {f : Bytes} {k j : Nat} (b : Byte) (hps : 1 ≤ ps) (hf : 1 ≤ f.length)
    (hk : k < packetCount ps f.length) (hj : j < fragLen ps f.length k) :
    (framePackets ps f).set k ((framePacket ps f k).set (j + 1) b) = framePackets ps (f.set (fragOff ps f.length k + j) b) := by
  refine List.ext_getElem (by simp [framePackets_length]) fun i hi _ => ?_
  rw [List.length_set, framePackets_length] at hi
  rw [List.getElem_set, framePackets_getElem, framePackets_getElem, framePacket_set b hps hf hk hj hi]
  simp only [eq_comm]

/-- What is delivered for an invalid frame: its payload marked. -/
theorem deliver_of_invalid {f : Bytes} (h : cks8Chk f = false) : deliver f = .frameOut (markMismatch f.dropLast) false := by
  simp [deliver, h]

/-- A fragment byte of `FRAG(P)` is a byte of the frame, and changing it gives the packets of the frame with that byte changed. -/
theorem frag_set_eq {ps : Nat} {p pkt : Bytes} {k j : Nat} {old : Byte} (hps : 1 ≤ ps) (hp : p ≠ [])
    (hpkt : (frag ps p)[k]? = some pkt) (hold : pkt[j + 1]? = some old) :
    ∃ (i : Nat) (hi : i < (cks8Gen p).length), (cks8Gen p)[i] = old ∧
      ∀ b, (frag ps p).set k (pkt.set (j + 1) b) = framePackets ps ((cks8Gen p).set i b) := by
  have hf : 1 ≤ (cks8Gen p).length := by simp
  rw [frag_cons hp] at hpkt ⊢
  obtain ⟨hk, rfl⟩ := List.getElem?_eq_some_iff.1 hpkt
  rw [framePackets_getElem] at hold ⊢
  rw [framePackets_length] at hk
  obtain ⟨hj, rfl⟩ := List.getElem?_eq_some_iff.1 hold
  rw [framePacket_length hf hk] at hj
  have hend := fragOff_add_fragLen (ps := ps) hf hk
  exact ⟨fragOff ps (cks8Gen p).length k + j, by omega, by simp [framePacket],
    fun b => framePackets_set b hps hf hk (Nat.lt_of_succ_lt_succ hj)⟩

/-- Settles O43: the packets are those of the frame with one byte changed, which is not valid (`oneChangedByteIsDetected`). -/
theorem oneCorruptedByteIsReported : Obligations.OneCorruptedByteIsReported := by
  intro p s k j pkt b old hinv hclear hlen hF hcap hpkt hold hne
  obtain ⟨i, hi, rfl, hset⟩ := frag_set_eq hinv.params.1 (List.length_pos_iff.1 hlen) hpkt hold
  have hbad := oneChangedByteIsDetected (cks8Gen p) i b hi (cks8Chk_cks8Gen p) hne
  have hpay : ((cks8Gen p).set i b).dropLast.length = p.length := by simp
  refine ⟨markMismatch ((cks8Gen p).set i b).dropLast, ?_, by rw [markMismatch_length, hpay], fun h2 => ?_⟩
  · rw [hset, hinv.receive_framePackets hclear (by simp) (by simpa) (by simpa), deliver_of_invalid hbad]
    rfl
  · rw [← hpay, markMismatch_drop (by omega)]

/-! ### A frame too long for its headers -/

theorem execAll_cons_next {i : Instr} {is : List Instr} {s t : State} (h : execAll (i :: is) s = .next t) :
    ∃ u, exec i s = .next u ∧ execAll is u = .next t := by
  rw [execAll] at h
  cases hu : exec i s with
  | next u => rw [hu] at h; exact ⟨u, rfl, h⟩
  | fault r => rw [hu] at h; cases h
  | refused r => rw [hu] at h; cases h

/-- Every `FRAME_OUT` among the outputs carries fewer than `n` bytes. -/
def ShortFrames (n : Nat) (es : List OutEvent) : Prop := ∀ out ok, OutEvent.frameOut out ok ∈ es → out.length < n

theorem shortFrames_nil (n : Nat) : ShortFrames n [] := fun _ _ h => absurd h List.not_mem_nil

theorem ShortFrames.append {n : Nat} {es es' : List OutEvent} (h : ShortFrames n es) (h' : ShortFrames n es') :
    ShortFrames n (es ++ es') :=
  fun out ok hmem => (List.mem_append.1 hmem).elim (h out ok) (h' out ok)

theorem shortFrames_deliver {n : Nat} {f : Bytes} (h1 : 1 ≤ f.length) (hn : f.length ≤ n) : ShortFrames n [deliver f] := by
  obtain ⟨out, hout, hlen, -, -⟩ := deliver_eq f
  intro out' ok hmem
  rw [hout, List.mem_singleton] at hmem
  cases hmem
  omega

/-- A packet of at most `PKT_MAX` bytes reaches no address above `255 + PS`: with no more than that accumulated before, no more is
accumulated after, and no longer frame is completed. -/
theorem receive_short {s t : State} {b : Bytes} {n : Nat} (h : exec (.rxPacket b) s = .next t) (hb : b.length ≤ n + 1)
    (hlen : s.rxLen ≤ 255 + n) :
    t.rxLen ≤ 255 + n ∧ ∃ es, t.outputs = s.outputs ++ es ∧ ShortFrames (255 + n) es := by
  cases exec_inputCase rfl h with
  | rxEmpty => exact ⟨hlen, [], (List.append_nil _).symm, shortFrames_nil _⟩
  | @rxNon o d _ hne =>
    have ho := o.isLt
    rw [List.length_cons] at hb
    refine ⟨?_, [], (List.append_nil _).symm, shortFrames_nil _⟩
    rw [State.takeFragment_rxLen]
    omega
  | rxZero => exact ⟨Nat.zero_le _, [], (List.append_nil _).symm, shortFrames_nil _⟩
  | rxFin hpos =>
    rw [List.length_cons] at hb
    refine ⟨Nat.zero_le _, _, rfl, shortFrames_deliver ?_ ?_⟩
    · rw [Memory.readBytes_length]; omega
    · rw [Memory.readBytes_length, State.takeFragment_rxLen]; omega

/-- The same over a list of such packets. -/
theorem receiveAll_short {n : Nat} {pkts : List Bytes} (hpkts : ∀ b ∈ pkts, b.length ≤ n + 1) {s t : State}
    (hlen : s.rxLen ≤ 255 + n) (h : execAll (notifications pkts) s = .next t) :
    ∃ es, t.outputs = s.outputs ++ es ∧ ShortFrames (255 + n) es := by
  induction pkts generalizing s with
  | nil =>
    rw [next_inj h]
    exact ⟨[], (List.append_nil _).symm, shortFrames_nil _⟩
  | cons b pkts ih =>
    obtain ⟨u, hu, hrest⟩ := execAll_cons_next h
    obtain ⟨hulen, es, hes, hshort⟩ := receive_short hu (hpkts b List.mem_cons_self) hlen
    obtain ⟨es', hes', hshort'⟩ := ih (fun c hc => hpkts c (List.mem_cons_of_mem _ hc)) hulen hrest
    exact ⟨es ++ es', by rw [hes', hes, List.append_assoc], hshort.append hshort'⟩

theorem framePackets_length_le {ps : Nat} {f b : Bytes} (hps : 1 ≤ ps) (hf : 1 ≤ f.length) (hb : b ∈ framePackets ps f) :
    b.length ≤ ps + 1 := by
  obtain ⟨k, hk, rfl⟩ := List.mem_map.1 hb
  rw [framePacket_length hf (List.mem_range.1 hk)]
  exact Nat.succ_le_succ (fragLen_le hps)

/-- Settles O36: the packets of `FRAG` are short, so no frame they complete is longer than `255 + PS` bytes. -/
theorem oversizeFrameNeverReassembles : Obligations.OversizeFrameNeverReassembles := by
  intro p s t hinv hclear hbig h
  have hp : p ≠ [] := by rintro rfl; rw [List.length_nil] at hbig; omega
  rw [frag_cons hp] at h
  obtain ⟨es, hes, hshort⟩ := receiveAll_short (fun b hb => framePackets_length_le hinv.params.1 (by simp) hb) (by omega) h
  exact ⟨es, hes, fun out ok hmem => (hshort out ok hmem).trans_le (by omega)⟩

end Sys2Proof.Machine

/-! PROOFS. The family other: a transmit event and a receive event commute (20_memory.md R52). Each acts on its own side whatever
the other side holds, so the state after both, in either order, has the one's transmit side and the other's receive side. -/

namespace Sys2Proof.Machine

/-- The same state with another receive side and other outputs: what a receive event may write. -/
def State.withRx (s : State) (m : Memory) (n : Nat) (es : List OutEvent) : State := { s with rxBuf := m, rxLen := n, outputs := es }

/-- The same state with the transmit side of `u` and other outputs: what a transmit event may write. -/
def State.withTxOf (s u : State) (es : List OutEvent) : State :=
  { s with txState := u.txState, txBuf := u.txBuf, txFlen := u.txFlen, txOff := u.txOff, outputs := es }

/-- From `s`, with whatever receive side and outputs, the row writes the transmit side of `u` and emits `es`. -/
def ActsOnTx (i : Instr) (s u : State) (es : List OutEvent) : Prop :=
  ∀ m n os, exec i (s.withRx m n os) = .next ((s.withRx m n os).withTxOf u (os ++ es))

/-- From `s`, with whatever transmit side and outputs, the row writes the receive buffer `m` and length `n` and emits `es`. -/
def ActsOnRx (i : Instr) (s : State) (m : Memory) (n : Nat) (es : List OutEvent) : Prop :=
  ∀ u os, exec i (s.withTxOf u os) = .next ((s.withTxOf u os).withRx m n (os ++ es))

/-- The row acts on the transmit side only. -/
def TxLocal (i : Instr) (s : State) : Prop := ∃ u es, (∀ e ∈ es, e.fromTx = true) ∧ ActsOnTx i s u es

/-- The row acts on the receive side only. -/
def RxLocal (j : Instr) (s : State) : Prop := ∃ m n es, (∀ e ∈ es, e.fromTx = false) ∧ ActsOnRx j s m n es

/-! ### Transmit events -/

/-- A transmit event that is ignored. -/
theorem TxLocal.silent {i : Instr} {s : State} (h : ∀ m n os, exec i (s.withRx m n os) = .next (s.withRx m n os)) : TxLocal i s :=
  ⟨s, [], nofun, fun m n os => by rw [List.append_nil]; exact h m n os⟩

/-- A transmit event that emits one output. -/
theorem TxLocal.emits {i : Instr} {s : State} (u : State) {e : OutEvent} (he : e.fromTx = true) (h : ActsOnTx i s u [e]) :
    TxLocal i s := ⟨u, [e], by simpa using he, h⟩

/-- The packet at `tx_off` is sent whatever the receive side holds. -/
theorem Inv.sendPkt_withRx {s : State} (h : Inv s) (hs : s.txState = .sending) (m : Memory) (n : Nat) (os : List OutEvent) :
    (s.withRx m n os).sendPkt = .next ((s.withRx m n os).emit (.pktOut s.packetAtOff)) :=
  State.sendPkt_eq ((h.fragment_le hs).trans (h.flen hs).2)

theorem Inv.txLocal_txStart {s : State} (hinv : Inv s) (p : Bytes) : TxLocal (.txStart p) s := by
  by_cases hs : s.txState = .sending
  · exact .emits s (e := .refused .busy) rfl fun m n os => execTxStart_busy (s := s.withRx m n os) p hs
  have hidle := TxState.idle_of_ne_sending hs
  by_cases hp : p = []
  · subst hp
    exact .silent fun m n os => execTxStart_nil (s := s.withRx m n os) hidle
  by_cases hcap : p.length + 1 ≤ s.params.txCap
  · exact .emits (s.loadFrame p) (e := .pktOut (s.loadFrame p).packetAtOff) rfl fun m n os =>
      (execTxStart_accepted (s := s.withRx m n os) hidle hp hcap).trans ((hinv.loadFrame hp hcap).sendPkt_withRx rfl m n os)
  · exact .emits s (e := .refused .tooLong) rfl fun m n os =>
      execTxStart_tooLong (s := s.withRx m n os) hidle hp (Nat.lt_of_not_le hcap)

theorem Inv.txLocal_txAck {s : State} (hinv : Inv s) : TxLocal .txAck s := by
  by_cases hidle : s.txState = .idle
  · exact .silent fun m n os => execTxAck_idle (s := s.withRx m n os) hidle
  have hs := TxState.sending_of_ne_idle hidle
  by_cases hoff : s.txOff = 0
  · exact .emits s.finishTx (e := .txDone) rfl fun m n os => execTxAck_head (s := s.withRx m n os) hs hoff
  · exact .emits s.advance (e := .pktOut s.advance.packetAtOff) rfl fun m n os =>
      (execTxAck_more (s := s.withRx m n os) hs hoff).trans ((hinv.advance hs).sendPkt_withRx hs m n os)

theorem Inv.txLocal {s : State} (hinv : Inv s) {i : Instr} (hi : isTxEvent i = true) : TxLocal i s := by
  cases i with
  | txStart p => exact hinv.txLocal_txStart p
  | txAck => exact hinv.txLocal_txAck
  | _ => cases hi

/-! ### Receive events -/

/-- A receive event that emits nothing. -/
theorem RxLocal.silent {j : Instr} {s : State} (m : Memory) (n : Nat)
    (h : ∀ u os, exec j (s.withTxOf u os) = .next ((s.withTxOf u os).withRx m n os)) : RxLocal j s :=
  ⟨m, n, [], nofun, fun u os => by rw [List.append_nil]; exact h u os⟩

theorem Inv.rxLocal_pktFinal {s : State} (hinv : Inv s) (d : Bytes) : RxLocal (.pktFinal d) s := by
  by_cases hzero : (s.takeFragment 0 d).rxLen = 0
  · exact .silent [] 0 fun u os => State.complete_zero (s := (s.withTxOf u os).takeFragment 0 d) hzero
  · refine ⟨[], 0, [deliver (receivedFrame s d)], by simp, fun u os => ?_⟩
    rw [← hinv.readBytes_takeFragment d]
    exact State.complete_pos (s := (s.withTxOf u os).takeFragment 0 d) hzero (hinv.takeFragment 0 d).rxLen

theorem rxLocal_pktNonfinal (o : Byte) (d : Bytes) (s : State) : RxLocal (.pktNonfinal o d) s :=
  .silent (s.takeFragment o.toNat d).rxBuf (s.takeFragment o.toNat d).rxLen fun _ _ => rfl

theorem Inv.rxLocal_rxPacket {s : State} (hinv : Inv s) (b : Bytes) : RxLocal (.rxPacket b) s := by
  cases b with
  | nil => exact .silent s.rxBuf s.rxLen fun _ _ => rfl
  | cons h d =>
    by_cases h0 : h = 0x00
    · subst h0
      exact hinv.rxLocal_pktFinal d
    · exact .silent (s.takeFragment h.toNat d).rxBuf (s.takeFragment h.toNat d).rxLen fun _ _ => execRxPacket_nonfinal d _ h0

theorem Inv.rxLocal {s : State} (hinv : Inv s) {j : Instr} (hj : isRxEvent j = true) : RxLocal j s := by
  cases j with
  | pktFinal d => exact hinv.rxLocal_pktFinal d
  | pktNonfinal o d => exact rxLocal_pktNonfinal o d s
  | rxClear => exact .silent [] 0 fun _ _ => rfl
  | rxPacket b => exact hinv.rxLocal_rxPacket b
  | _ => cases hj

/-! ### Both -/

/-- Settles O52: both runs end in the same two sides; their outputs differ in order only, and each side emits its own. -/
theorem txAndRxEventsCommute : Obligations.TxAndRxEventsCommute := by
  intro i j s hinv hi hj
  obtain ⟨u, es, hes, htx⟩ := hinv.txLocal hi
  obtain ⟨m, n, fs, hfs, hrx⟩ := hinv.rxLocal hj
  have hi1 : exec i s = .next (s.withTxOf u (s.outputs ++ es)) := htx s.rxBuf s.rxLen s.outputs
  have hj1 : exec j s = .next (s.withRx m n (s.outputs ++ fs)) := hrx s s.outputs
  refine ⟨(s.withTxOf u (s.outputs ++ es)).withRx m n (s.outputs ++ es ++ fs),
    (s.withRx m n (s.outputs ++ fs)).withTxOf u (s.outputs ++ fs ++ es), ?_, ?_, ⟨rfl, rfl, rfl, rfl⟩, ⟨rfl, rfl⟩,
    rfl, rfl, rfl, ?_, ?_⟩
  · rw [execAll_cons hi1, execAll_cons (hrx u (s.outputs ++ es)), execAll]
  · rw [execAll_cons hj1, execAll_cons (htx m n (s.outputs ++ fs)), execAll]
  · have hnone : fs.filter (fun e => e.fromTx) = [] := List.filter_eq_nil_iff.2 fun e he => ne_true_of_eq_false (hfs e he)
    simp only [State.txOutputs, State.withRx, State.withTxOf, List.filter_append, hnone, List.append_nil]
  · have hnone : es.filter (fun e => !e.fromTx) = [] := List.filter_eq_nil_iff.2 fun e he => by simp [hes e he]
    simp only [State.rxOutputs, State.withRx, State.withTxOf, List.filter_append, hnone, List.append_nil]

end Sys2Proof.Machine
